-- ==== Sys2Proof/Word.lean ====
section
/-! DEFINITION. The machine's one word type, the register index, and the reduction `u8` of rule R9. -/

namespace Sys2Proof

/-- Every register, memory cell, operand byte and address is an unsigned 8-bit value (R9; decision D15). -/
abbrev Byte := BitVec 8

/-- The index of a general register, 0 to 7 (R21). -/
abbrev RegIdx := Fin 8

/-- `u8(v)` of R9: `v mod 256` for any integer `v`, so that `u8 (-1) = 255`. -/
def u8 (v : Int) : Byte := BitVec.ofInt 8 v

end Sys2Proof
end

