-- ==== Sys2Proof/Config.lean ====
section
/-! DEFINITION. What is fixed for one machine: the parameters of R6 and the constants of the layout. The spec leaves no
value open (10_state.md R32, 92_eei_decisions.md), so there is no free value here. The parameters' default values are
`Config.default`, in Sys2Proof/Decode.lean, beside the opcode map that reads them. -/

namespace Sys2Proof

/-- `REG_INDEX_MODE` of R6 and R106 (decision D2): how a register operand byte above 7 is treated. -/
inductive RegIndexMode where
  /-- `reg(b) = b[2:0]`; no failure is possible. -/
  | mask
  /-- A used register operand byte above 7 raises `DecodeFailure`. -/
  | fault
  deriving DecidableEq, Repr

/-- The parameters of R6 that are arguments of the model: the register-index mode and the opcode bytes of the four
conditional jumps, which the source does not give (decision D4). -/
structure Config where
  regIndexMode : RegIndexMode
  opJeq : Byte
  opJne : Byte
  opJgt : Byte
  opJlt : Byte
  deriving DecidableEq, Repr

/-- `SP_INDEX` of R6: register 7 is the stack pointer (R22). -/
def spIndex : RegIdx := 7

/-- `SP_RESET` of R6: the stack pointer after reset. -/
def spReset : Byte := 0xF4

/-- `MEM_SIZE` of R6: the number of memory cells. -/
def memSize : Nat := 256

/-- `MAX_IMAGE` of R6: the longest program image the core has a run for. -/
def maxImage : Nat := 256

end Sys2Proof
end

