-- ==== Sys2Proof/Syntax.lean ====
section
/-! DEFINITION. The instructions: one constructor for each row of the opcode map (R76). -/

namespace Sys2Proof

/-- A decoded instruction with the operand bytes it uses, as they were fetched: `a` is operandA, `b` is operandB (R11).
A register operand is kept as the raw byte, because what it names is settled within the step (R105, R106), under the
machine's `REG_INDEX_MODE`; a byte the instruction does not use is not part of it (R71, R107). -/
inductive Instr where
  /-- `HLT` (R178). -/
  | hlt
  /-- `LDI Ra,imm` (R120). -/
  | ldi (a imm : Byte)
  /-- `PRN Ra` (R122). -/
  | prn (a : Byte)
  /-- `MUL Ra,Rb` (R133). -/
  | mul (a b : Byte)
  /-- `ADD Ra,Rb` (R131). -/
  | add (a b : Byte)
  /-- `SUB Ra,Rb` (R132). -/
  | sub (a b : Byte)
  /-- `DIV Ra,Rb` (R134). -/
  | div (a b : Byte)
  /-- `MOD Ra,Rb` (R135). -/
  | mod (a b : Byte)
  /-- `PUSH Ra` (R160). -/
  | push (a : Byte)
  /-- `POP Ra` (R161). -/
  | pop (a : Byte)
  /-- `CMP Ra,Rb` (R136). -/
  | cmp (a b : Byte)
  /-- `JMP Ra` (R170). -/
  | jmp (a : Byte)
  /-- `CALL Ra` (R176). -/
  | call (a : Byte)
  /-- `RET` (R177). -/
  | ret
  /-- `JEQ Ra` (R172). -/
  | jeq (a : Byte)
  /-- `JNE Ra` (R173). -/
  | jne (a : Byte)
  /-- `JGT Ra` (R174). -/
  | jgt (a : Byte)
  /-- `JLT Ra` (R175). -/
  | jlt (a : Byte)
  deriving DecidableEq, Repr

end Sys2Proof
end

