-- ==== Sys2Proof/Decode.lean ====
section
/-! DEFINITION. The opcode map of R76, the decoder from bytes and the encoder to bytes (30_encoding.md). The default
configuration stands here too, because its opcode bytes are the decoder's. -/

namespace Sys2Proof

/-- The names of the rows of the opcode map (R76), in the map's order. -/
inductive Mnemonic where
  | hlt | ldi | prn | mul | add | sub | div | mod | push | pop | cmp | jmp | call | ret | jeq | jne | jgt | jlt
  deriving DecidableEq, Repr

/-- The instruction formats of R71. -/
inductive Format where
  /-- Opcode only. -/
  | f0
  /-- One register operand. -/
  | f1r
  /-- Two register operands. -/
  | f2r
  /-- A register operand and an 8-bit immediate. -/
  | f2i
  deriving DecidableEq, Repr

/-- Why a list of bytes does not begin with an instruction. -/
inductive Reject where
  /-- There is no opcode byte. The core always fetches three bytes, so only a caller outside the core meets this. -/
  | noBytes
  /-- The opcode byte is in no row of the map (R79); the step raises `DecodeFailure`. -/
  | illegalOpcode (op : Byte)
  /-- The list ends before the instruction's last operand byte; the core's three fetched bytes never do. -/
  | truncated (op : Byte)
  deriving DecidableEq, Repr

/-- The parameters' defaults of R6: `mask`, and the jump bytes 0x55 to 0x58, which the spec takes from general knowledge
(decisions D2 and D4; log entries 2 and 3). -/
def Config.default : Config :=
  { regIndexMode := .mask, opJeq := 0x55, opJne := 0x56, opJgt := 0x57, opJlt := 0x58 }

/-- The number of operand bytes of a format (R71). -/
def Format.operandCount : Format → Nat
  | .f0 => 0
  | .f1r => 1
  | .f2r => 2
  | .f2i => 2

/-- The format column of R76. -/
def Mnemonic.format : Mnemonic → Format
  | .hlt => .f0
  | .ldi => .f2i
  | .prn => .f1r
  | .mul => .f2r
  | .add => .f2r
  | .sub => .f2r
  | .div => .f2r
  | .mod => .f2r
  | .push => .f1r
  | .pop => .f1r
  | .cmp => .f2r
  | .jmp => .f1r
  | .call => .f1r
  | .ret => .f0
  | .jeq => .f1r
  | .jne => .f1r
  | .jgt => .f1r
  | .jlt => .f1r

/-- The byte column of R76, most significant bit first as the source writes it. SUB, DIV and MOD are read from the
source's abbreviated cell (91_not_in_source.md N2). -/
def Mnemonic.opcode (c : Config) : Mnemonic → Byte
  | .hlt => 0b00000001
  | .ldi => 0b10000010
  | .prn => 0b01000111
  | .mul => 0b10100010
  | .add => 0b10100000
  | .sub => 0b10100001
  | .div => 0b10100011
  | .mod => 0b10100100
  | .push => 0b01000101
  | .pop => 0b01000110
  | .cmp => 0b10100111
  | .jmp => 0b01010100
  | .call => 0b01010000
  | .ret => 0b00010001
  | .jeq => c.opJeq
  | .jne => c.opJne
  | .jgt => c.opJgt
  | .jlt => c.opJlt

/-- The fourteen rows of R76 whose byte the source gives. -/
def Mnemonic.sourceRows : List Mnemonic :=
  [.hlt, .ldi, .prn, .mul, .add, .sub, .div, .mod, .push, .pop, .cmp, .jmp, .call, .ret]

/-- The four rows of R76 whose byte is a parameter. -/
def Mnemonic.jumpRows : List Mnemonic := [.jeq, .jne, .jgt, .jlt]

/-- Every row of R76. -/
def Mnemonic.all : List Mnemonic := Mnemonic.sourceRows ++ Mnemonic.jumpRows

/-- The operand-count field `n = op[7:6]` of an opcode byte (R70, R72). -/
def operandField (op : Byte) : Nat := (op.extractLsb' 6 2).toNat

/-- Bit 5 of an opcode byte, the ALU bit of R72: descriptive, the decoder does not read it. -/
def aluBit (op : Byte) : Bool := op.getLsbD 5

/-- Bit 4 of an opcode byte, the sets-PC bit of R72: descriptive, the decoder does not read it. -/
def setsPcBit (op : Byte) : Bool := op.getLsbD 4

/-- The row an opcode byte selects, by comparing all eight bits with the map (R73). -/
def lookup (c : Config) (op : Byte) : Option Mnemonic :=
  Mnemonic.all.find? (fun m => m.opcode c == op)

/-- The instruction a row names with the operand bytes; a byte the format does not use is dropped (R71). -/
def Mnemonic.instr (m : Mnemonic) (a b : Byte) : Instr :=
  match m with
  | .hlt => .hlt
  | .ldi => .ldi a b
  | .prn => .prn a
  | .mul => .mul a b
  | .add => .add a b
  | .sub => .sub a b
  | .div => .div a b
  | .mod => .mod a b
  | .push => .push a
  | .pop => .pop a
  | .cmp => .cmp a b
  | .jmp => .jmp a
  | .call => .call a
  | .ret => .ret
  | .jeq => .jeq a
  | .jne => .jne a
  | .jgt => .jgt a
  | .jlt => .jlt a

/-- Take a row's operand bytes from the bytes after the opcode, and give back the rest (R70, R71). -/
def takeOperands (m : Mnemonic) (op : Byte) (rest : List Byte) : Except Reject (Instr × List Byte) :=
  match m.format.operandCount, rest with
  | 0, r => .ok (m.instr 0 0, r)
  | 1, a :: r => .ok (m.instr a 0, r)
  | 2, a :: b :: r => .ok (m.instr a b, r)
  | _, _ => .error (.truncated op)

/-- The decoder: the instruction at the head of a list of bytes, and the bytes after it (R70, R73, R79). -/
def decode (c : Config) : List Byte → Except Reject (Instr × List Byte)
  | [] => .error .noBytes
  | op :: rest =>
    match lookup c op with
    | none => .error (.illegalOpcode op)
    | some m => takeOperands m op rest

/-- The row of an instruction. -/
def Instr.mnemonic : Instr → Mnemonic
  | .hlt => .hlt
  | .ldi _ _ => .ldi
  | .prn _ => .prn
  | .mul _ _ => .mul
  | .add _ _ => .add
  | .sub _ _ => .sub
  | .div _ _ => .div
  | .mod _ _ => .mod
  | .push _ => .push
  | .pop _ => .pop
  | .cmp _ _ => .cmp
  | .jmp _ => .jmp
  | .call _ => .call
  | .ret => .ret
  | .jeq _ => .jeq
  | .jne _ => .jne
  | .jgt _ => .jgt
  | .jlt _ => .jlt

/-- The operand bytes of an instruction, at increasing addresses: operandA, then operandB (R55, R71). -/
def Instr.operandBytes : Instr → List Byte
  | .hlt => []
  | .ldi a imm => [a, imm]
  | .prn a => [a]
  | .mul a b => [a, b]
  | .add a b => [a, b]
  | .sub a b => [a, b]
  | .div a b => [a, b]
  | .mod a b => [a, b]
  | .push a => [a]
  | .pop a => [a]
  | .cmp a b => [a, b]
  | .jmp a => [a]
  | .call a => [a]
  | .ret => []
  | .jeq a => [a]
  | .jne a => [a]
  | .jgt a => [a]
  | .jlt a => [a]

/-- The encoder: the opcode byte of R76 and then the operand bytes (R70, R82). -/
def encode (c : Config) (i : Instr) : List Byte := i.mnemonic.opcode c :: i.operandBytes

/-- Byte `k` of a word whose bit 0 is the least significant bit of its first byte. -/
def wordByte (w k : Nat) : Byte := BitVec.ofNat 8 (w >>> (8 * k))

/-- The three bytes the core fetches (R102) for a word of `nbits` bits, every bit above `nbits` zero. -/
def wordBytes (nbits w : Nat) : List Byte :=
  [wordByte (w % 2 ^ nbits) 0, wordByte (w % 2 ^ nbits) 1, wordByte (w % 2 ^ nbits) 2]

/-- What the decoder reads from a word numbered as spec/opcode_table.json numbers it, under the default parameters. -/
def decodeTableWord (nbits w : Nat) : Option Instr :=
  match decode Config.default (wordBytes nbits w) with
  | .ok (i, _) => some i
  | .error _ => none

end Sys2Proof
end

