-- ==== Sys2Proof/WellFormed.lean ====
section
/-! DEFINITION. The checks: a configuration the decoder may run under (R7), an instruction whose register operand bytes
name registers (R106, R107), and a program image the core has a run for (R232). It imports the decoder because R7 speaks
of the opcode map. -/

namespace Sys2Proof

/-- R7: the four jump bytes are distinct. -/
def Config.jumpBytesDistinct (c : Config) : Bool :=
  decide ((Mnemonic.jumpRows.map (Mnemonic.opcode c)).Nodup)

/-- R7: no jump byte equals an opcode byte of the fourteen rows the source encodes. -/
def Config.jumpBytesNew (c : Config) : Bool :=
  Mnemonic.jumpRows.all fun j => Mnemonic.sourceRows.all fun m => j.opcode c != m.opcode c

/-- R7: each jump byte has bits 7:6 = 01, one operand. -/
def Config.jumpBytesOneOperand (c : Config) : Bool :=
  Mnemonic.jumpRows.all fun j => operandField (j.opcode c) == 1

/-- R7: the configurations a model must not refuse. -/
def Config.wf (c : Config) : Bool :=
  c.jumpBytesDistinct && c.jumpBytesNew && c.jumpBytesOneOperand

/-- The operand bytes an instruction uses as register indices (R107): never LDI's immediate. -/
def Instr.registerBytes : Instr → List Byte
  | .hlt => []
  | .ldi a _ => [a]
  | .prn a => [a]
  | .mul a b => [a, b]
  | .add a b => [a, b]
  | .sub a b => [a, b]
  | .div a b => [a, b]
  | .mod a b => [a, b]
  | .push a => [a]
  | .pop a => [a]
  | .cmp a b => [a, b]
  | .jmp a => [a]
  | .call a => [a]
  | .ret => []
  | .jeq a => [a]
  | .jne a => [a]
  | .jgt a => [a]
  | .jlt a => [a]

/-- A register operand byte that names a register in the mode (R106): any byte under `mask`, 0 to 7 under `fault`. -/
def RegIndexMode.admits (m : RegIndexMode) (b : Byte) : Bool :=
  match m with
  | .mask => true
  | .fault => decide (b.toNat ≤ 7)

/-- An instruction is well-formed for a mode if every register operand byte it uses names a register (R106, R107). -/
def Instr.wf (m : RegIndexMode) (i : Instr) : Bool := i.registerBytes.all m.admits

/-- R232: an image of more than 256 bytes is not a valid input. -/
def imageWf (image : List Byte) : Bool := decide (image.length ≤ maxImage)

end Sys2Proof
end

