-- ==== Sys2Proof/Machine/State.lean ====
section
/-! DEFINITION. Every piece of state the spec gives the core (10_state.md), the stops of a step, and the state after
reset. All of it is plain data. -/

namespace Sys2Proof.Machine

/-- The memory of R29 as address and byte pairs in one canonical form (`Memory.wf`, in Machine/Ops.lean): addresses
rising, each below 256, and no entry equal to 0, which is what an unlisted address reads as (R32). -/
abbrev Memory := List Host.Cell

/-- The two failures a step raises (R200). -/
inductive FailureKind where
  /-- Raised by a fetch of an opcode byte in no row of the map, and under `REG_INDEX_MODE = fault` by a used register
  operand byte above 7 (R201). -/
  | decodeFailure
  /-- Raised by DIV and MOD with a zero divisor (R202). -/
  | arithmeticFailure
  deriving DecidableEq, Repr

/-- The run state `run` of R27. -/
inductive RunState where
  /-- The core executes an instruction cycle on each step. -/
  | running
  /-- Entered only by HLT: a clean, successful stop. -/
  | halted
  /-- Entered by a failure: its kind, the address of the failing instruction and its opcode byte. -/
  | faulted (kind : FailureKind) (fpc fop : Byte)
  deriving DecidableEq, Repr

/-- The state of the core. -/
structure State where
  /-- The machine's parameters (R6). They are not architectural state: no instruction reads them as data and no step
  changes them; they stand here because a step is a function of the state alone (log entry 1). -/
  cfg : Config
  /-- The general registers `x[0]` to `x[7]` (R21); `x[7]` is the stack pointer (R22). -/
  x : Vector Byte 8
  /-- The program counter (R24). -/
  pc : Byte
  /-- The flags register `FL` (R25): bit 0 E, bit 1 G, bit 2 L. -/
  fl : Byte
  /-- The run state (R27). -/
  run : RunState
  /-- The bytes PRN emitted, the oldest first (R28). -/
  out : List Byte
  /-- The memory `M` (R29). -/
  mem : Memory
  deriving DecidableEq, Repr

/-- Why a step is not enabled. Both are raised by `step` alone, never by an instruction's meaning. -/
inductive Fault where
  /-- `run = Halted`: no step is enabled and nothing changes (R100, R27). Safe: the model stops where the core does. -/
  | halted
  /-- `run = Faulted(kind, fpc, fop)`: no step is enabled and nothing changes (R100, R208). Safe: as `halted`. -/
  | failed (kind : FailureKind) (fpc fop : Byte)
  deriving DecidableEq, Repr

/-- What the model has no run for. -/
inductive Refusal where
  /-- Raised by `exec` for an instruction that has no meaning yet; no arm of it does. Safe. -/
  | notModelled (mnemonic : String)
  /-- Raised by `step` and by `applyReset`: the parameters break R7, which asks the model to refuse them. Safe. -/
  | invalidConfiguration
  /-- Raised by `applyReset`: an image of more than 256 bytes (R232); no prefix of it is loaded. Safe. -/
  | imageTooLong
  deriving DecidableEq, Repr

/-- The registers after reset (R32): all 0 but the stack pointer. -/
def resetRegs : Vector Byte 8 := #v[0, 0, 0, 0, 0, 0, 0, spReset]

/-- The state after reset with the empty image under the default parameters (R32, R230). A longer image comes in
through `bootState` and `applyReset` (Machine/Boot.lean). -/
def State.reset : State :=
  { cfg := Config.default, x := resetRegs, pc := 0, fl := 0, run := .running, out := [], mem := [] }

end Sys2Proof.Machine
end

