-- ==== Sys2Proof/Machine/Ops.lean ====
section
/-! DEFINITION. The named operations over memory and registers: the primitives of R10, the stack's push and pop, the
failure entry of R203, and the fetch of R101 and R102. -/

namespace Sys2Proof.Machine

/-! ### Memory (20_memory.md) -/

/-- What an address with no entry holds: memory is zero-initialised (R32). -/
def Memory.unlisted : Byte := 0

/-- The byte at a cell. -/
def Memory.readCell : Memory → Nat → Byte
  | [], _ => Memory.unlisted
  | (k, v) :: m, a => if k = a then v else Memory.readCell m a

/-- Put a byte at a cell, keeping the addresses in rising order. -/
def Memory.insertCell : Memory → Nat → Byte → Memory
  | [], a, v => [(a, v)]
  | (k, w) :: m, a, v =>
    if a < k then (a, v) :: (k, w) :: m
    else if a = k then (a, v) :: m
    else (k, w) :: Memory.insertCell m a v

/-- Take a cell out of the list, so that it reads as unlisted. -/
def Memory.eraseCell : Memory → Nat → Memory
  | [], _ => []
  | (k, w) :: m, a => if k = a then Memory.eraseCell m a else (k, w) :: Memory.eraseCell m a

/-- `MemRead(a, 1)` (R51): every 8-bit address exists (R50), and a read changes nothing. -/
def Memory.read (m : Memory) (a : Byte) : Byte := Memory.readCell m a.toNat

/-- `MemWrite(a, 1, v)` (R52), keeping the canonical form. -/
def Memory.write (m : Memory) (a v : Byte) : Memory :=
  if v = Memory.unlisted then Memory.eraseCell m a.toNat else Memory.insertCell m a.toNat v

/-- The canonical form from an address on: rising, inside the address space, and no entry that reads as unlisted. -/
def Memory.wfFrom : Nat → Memory → Bool
  | _, [] => true
  | lo, (k, v) :: m =>
    decide (lo ≤ k) && decide (k < memSize) && v != Memory.unlisted && Memory.wfFrom (k + 1) m

/-- The canonical form of a memory. -/
def Memory.wf (m : Memory) : Bool := Memory.wfFrom 0 m

/-- Write the bytes of a list at rising addresses from `a` on (R231, step 2). -/
def Memory.loadFrom (m : Memory) (a : Nat) : List Byte → Memory
  | [] => m
  | v :: vs => Memory.loadFrom (m.write (BitVec.ofNat 8 a) v) (a + 1) vs

/-! ### The primitives of R10 on the state -/

/-- `x[r]` (R21). -/
def State.reg (s : State) (r : RegIdx) : Byte := s.x.get r

/-- `x[r] <- v` (R21). No register is hard-wired. -/
def State.setReg (s : State) (r : RegIdx) (v : Byte) : State := { s with x := s.x.set r v }

/-- `SP`, the stack pointer, is `x[7]` (R22). -/
def State.sp (s : State) : Byte := s.reg spIndex

/-- `pc <- t` (R10). -/
def State.setPc (s : State) (t : Byte) : State := { s with pc := t }

/-- `FL <- v` (R10). -/
def State.setFl (s : State) (v : Byte) : State := { s with fl := v }

/-- Set the run state (R27). -/
def State.setRun (s : State) (r : RunState) : State := { s with run := r }

/-- `emit(v)`: append a byte to the output (R10, R28). -/
def State.emit (s : State) (v : Byte) : State := { s with out := s.out ++ [v] }

/-- `MemRead(a, 1)` (R10, R51). -/
def State.read (s : State) (a : Byte) : Byte := s.mem.read a

/-- `MemWrite(a, 1, v)` (R10, R52). -/
def State.write (s : State) (a v : Byte) : State := { s with mem := s.mem.write a v }

/-- The address after an instruction with `n` operand bytes: `u8(pc + 1 + n)` (R110, R111). -/
def State.nextPc (s : State) (n : Nat) : Byte := s.pc + 1 + BitVec.ofNat 8 n

/-- The automatic advance of R110. -/
def State.advance (s : State) (n : Nat) : State := s.setPc (s.nextPc n)

/-! ### The stack (43_stack.md) -/

/-- The cell a push writes: `SP' = u8(SP - 1)` (R53, R160). -/
def State.pushAddr (s : State) : Byte := s.sp - 1

/-- A push: the stack pointer moves down, then the byte is written at it (R160). There is no overflow check (R163). -/
def State.push (s : State) (v : Byte) : State := (s.setReg spIndex s.pushAddr).write s.pushAddr v

/-- The byte a pop reads (R161). There is no underflow check (R163). -/
def State.top (s : State) : Byte := s.read s.sp

/-- The stack pointer's move up after a pop's read (R161); the cell keeps its byte. -/
def State.dropTop (s : State) : State := s.setReg spIndex (s.sp + 1)

/-! ### Failures (60_exceptions.md) -/

/-- `raise F(pc, op)` (R10, R203): only the run state changes, and the pc stays at the failing instruction. There is no
return from a failure (R208), so no operation stands beside this one. -/
def State.raised (s : State) (kind : FailureKind) (op : Byte) : State := s.setRun (.faulted kind s.pc op)

/-- A step that raises answers the state after the failure's entry. -/
def raise (kind : FailureKind) (op : Byte) (s : State) : Host.Outcome State Fault Refusal :=
  .next (s.raised kind op)

/-! ### Fetch (40_instruction_cycle.md) -/

/-- The opcode byte at the pc (R101). -/
def State.fetchOpcode (s : State) : Byte := s.read s.pc

/-- The three bytes every cycle reads before any effect: the opcode, operandA and operandB (R101, R102). -/
def State.fetch (s : State) : List Byte := [s.fetchOpcode, s.read (s.pc + 1), s.read (s.pc + 2)]

/-- What the step does with bytes the decoder rejects: `raise DecodeFailure(pc, op)` (R103, R201). -/
def illegalInstruction (s : State) : Host.Outcome State Fault Refusal :=
  raise .decodeFailure s.fetchOpcode s

end Sys2Proof.Machine
end

