-- ==== Sys2Proof/Machine/Boot.lean ====
section
/-! DEFINITION. Reset with a program image (R20, R230 to R232), and the same placement for one instruction's bytes. -/

namespace Sys2Proof.Machine

/-- The memory after reset with an image (R231): every cell 0, then the image's bytes from address 0. -/
def bootMemory (image : List Byte) : Memory := Memory.loadFrom [] 0 image

/-- The state of R32 under a machine's parameters, with an image in memory. It is meant for an image of at most 256
bytes; `applyReset` refuses a longer one. -/
def bootState (c : Config) (image : List Byte) : State :=
  { cfg := c, x := resetRegs, pc := 0, fl := 0, run := .running, out := [], mem := bootMemory image }

/-- The `reset` input of R20 with its image: the state is discarded and built afresh, whatever it was (R230), and only
the machine's parameters stay. An image of more than 256 bytes has no run (R232), nor has a configuration R7 forbids. -/
def applyReset (image : List Byte) (s : State) : Host.Outcome State Fault Refusal :=
  if !s.cfg.wf then .refused .invalidConfiguration
  else if !imageWf image then .refused .imageTooLong
  else .next (bootState s.cfg image)

/-- Place bytes at the pc and the addresses after it, wrapping as the fetch does (R57, R102). -/
def State.placeAt (s : State) (a : Byte) : List Byte → State
  | [] => s
  | v :: vs => (s.write a v).placeAt (a + 1) vs

end Sys2Proof.Machine
end

