-- ==== Sys2Proof/Machine/Flags.lean ====
section
/-! DEFINITION. The flags register of R25: its bits, the value CMP writes (R136) and the conditions of R171. -/

namespace Sys2Proof.Machine

/-- `FL.E`, bit 0 (R25). -/
def flagE (fl : Byte) : Bool := fl.getLsbD 0

/-- `FL.G`, bit 1 (R25). -/
def flagG (fl : Byte) : Bool := fl.getLsbD 1

/-- `FL.L`, bit 2 (R25). -/
def flagL (fl : Byte) : Bool := fl.getLsbD 2

/-- The flags of a comparison of unsigned bytes (R136): the whole of `FL`, exactly one bit set. -/
def compareFlags (a b : Byte) : Byte :=
  if a = b then 0x01 else if a.toNat > b.toNat then 0x02 else 0x04

/-- JEQ is taken when `FL.E = 1` (R172). -/
def takenJeq (fl : Byte) : Bool := flagE fl

/-- JNE is taken when `FL.E = 0` (R173), so also before any CMP. -/
def takenJne (fl : Byte) : Bool := !flagE fl

/-- JGT is taken when `FL.G = 1` (R174). -/
def takenJgt (fl : Byte) : Bool := flagG fl

/-- JLT is taken when `FL.L = 1` (R175). -/
def takenJlt (fl : Byte) : Bool := flagL fl

end Sys2Proof.Machine
end

