-- ==== Sys2Proof/Machine/AluUnit.lean ====
section
/-! DEFINITION. The ALU block as the pure function `apply(op, a, b)` of R130, with the six operations instructions reach
and the eight that no opcode reaches (R137). Each is computed exactly and then reduced by `u8` (R9, R146). -/

namespace Sys2Proof.Machine

/-- The operations of the ALU: those of R131 to R136, and those of R138 to R145, which no opcode byte selects (R137). -/
inductive AluOp where
  | add | sub | mul | div | mod | cmp
  | and | or | xor | not | shl | shr | inc | dec
  deriving DecidableEq, Repr

/-- What the ALU returns. -/
inductive AluResult where
  /-- A result byte. -/
  | value (v : Byte)
  /-- The flags of CMP. -/
  | flags (fl : Byte)
  /-- DIV or MOD with a zero divisor (R134, R135). -/
  | zeroDivisor
  deriving DecidableEq, Repr

/-- `apply(op, a, b)` (R130 to R145). -/
def aluApply (op : AluOp) (a b : Byte) : AluResult :=
  match op with
  | .add => .value (u8 ((a.toNat : Int) + b.toNat))
  | .sub => .value (u8 ((a.toNat : Int) - b.toNat))
  | .mul => .value (u8 ((a.toNat : Int) * b.toNat))
  | .div => if b = 0 then .zeroDivisor else .value (BitVec.ofNat 8 (a.toNat / b.toNat))
  | .mod => if b = 0 then .zeroDivisor else .value (BitVec.ofNat 8 (a.toNat % b.toNat))
  | .cmp => .flags (compareFlags a b)
  | .and => .value (a &&& b)
  | .or => .value (a ||| b)
  | .xor => .value (a ^^^ b)
  | .not => .value (u8 (255 - (a.toNat : Int)))
  | .shl => .value (u8 ((a.toNat : Int) * 2 ^ b.toNat))
  | .shr => .value (BitVec.ofNat 8 (a.toNat / 2 ^ b.toNat))
  | .inc => .value (u8 ((a.toNat : Int) + 1))
  | .dec => .value (u8 ((a.toNat : Int) - 1))

end Sys2Proof.Machine
end

