-- ==== Sys2Proof/Machine/Operands.lean ====
section
/-! DEFINITION. Register operands: `reg(b)` of R106, and the resolution of an instruction's register operands before it
reads or writes anything (R105, R107, R108). -/

namespace Sys2Proof.Machine

/-- `reg(b)` of R106: the register an operand byte names, or none where `REG_INDEX_MODE = fault` rejects the byte. -/
def regIndex (mode : RegIndexMode) (b : Byte) : Option RegIdx :=
  if mode.admits b then some (b.extractLsb' 0 3).toFin else none

/-- Resolve one register operand, then go on; a byte that names no register raises `DecodeFailure` (R106). -/
def withReg (m : Mnemonic) (a : Byte) (s : State) (go : RegIdx → Host.Outcome State Fault Refusal) :
    Host.Outcome State Fault Refusal :=
  match regIndex s.cfg.regIndexMode a with
  | some ra => go ra
  | none => raise .decodeFailure (m.opcode s.cfg) s

/-- Resolve two register operands, then go on. Both checks come before any other failure (R207). -/
def withRegs (m : Mnemonic) (a b : Byte) (s : State) (go : RegIdx → RegIdx → Host.Outcome State Fault Refusal) :
    Host.Outcome State Fault Refusal :=
  withReg m a s fun ra => withReg m b s fun rb => go ra rb

/-- The automatic advance past an instruction of a row (R110): its operand count is its format's (R77). -/
def State.advancePast (s : State) (m : Mnemonic) : State := s.advance m.format.operandCount

end Sys2Proof.Machine
end

