-- ==== Sys2Proof/Machine/Alu.lean ====
section
/-! DEFINITION. The ALU instructions (42_alu.md): the engine reads both registers, calls the ALU and writes back (R130). -/

namespace Sys2Proof.Machine

/-- What the engine does with the ALU's answer (R130): write `x[ra]`, or for CMP write `FL`, and advance by 3; a zero
divisor raises `ArithmeticFailure` with no other effect (R202). -/
def aluWriteBack (m : Mnemonic) (ra : RegIdx) (r : AluResult) (s : State) : Host.Outcome State Fault Refusal :=
  match r with
  | .value v => .next ((s.setReg ra v).advancePast m)
  | .flags fl => .next ((s.setFl fl).advancePast m)
  | .zeroDivisor => raise .arithmeticFailure (m.opcode s.cfg) s

/-- An ALU instruction of a row, mapped to its ALU operation (R104, R130); both reads come before the write (R108). -/
def aluInstr (m : Mnemonic) (op : AluOp) (a b : Byte) (s : State) : Host.Outcome State Fault Refusal :=
  withRegs m a b s fun ra rb => aluWriteBack m ra (aluApply op (s.reg ra) (s.reg rb)) s

/-- MUL (R133). -/
def execMul (a b : Byte) (s : State) : Host.Outcome State Fault Refusal := aluInstr .mul .mul a b s

/-- ADD (R131). -/
def execAdd (a b : Byte) (s : State) : Host.Outcome State Fault Refusal := aluInstr .add .add a b s

/-- SUB (R132). -/
def execSub (a b : Byte) (s : State) : Host.Outcome State Fault Refusal := aluInstr .sub .sub a b s

/-- DIV (R134). -/
def execDiv (a b : Byte) (s : State) : Host.Outcome State Fault Refusal := aluInstr .div .div a b s

/-- MOD (R135). -/
def execMod (a b : Byte) (s : State) : Host.Outcome State Fault Refusal := aluInstr .mod .mod a b s

/-- CMP (R136). -/
def execCmp (a b : Byte) (s : State) : Host.Outcome State Fault Refusal := aluInstr .cmp .cmp a b s

end Sys2Proof.Machine
end

