-- ==== Sys2Proof/Machine/ControlFlow.lean ====
section
/-! DEFINITION. Jumps, subroutines and halt (44_control_flow.md). -/

namespace Sys2Proof.Machine

/-- The form the conditional jumps share (R171): to `x[ra]` if the flags say so, else past the instruction (decision D3). -/
def jumpIf (m : Mnemonic) (taken : Byte → Bool) (a : Byte) (s : State) : Host.Outcome State Fault Refusal :=
  withReg m a s fun ra => .next (if taken s.fl then s.setPc (s.reg ra) else s.advancePast m)

/-- JMP (R170): `t <- x[ra]; pc <- t`. -/
def execJmp (a : Byte) (s : State) : Host.Outcome State Fault Refusal :=
  withReg .jmp a s fun ra => .next (s.setPc (s.reg ra))

/-- JEQ (R172). -/
def execJeq (a : Byte) (s : State) : Host.Outcome State Fault Refusal := jumpIf .jeq takenJeq a s

/-- JNE (R173). -/
def execJne (a : Byte) (s : State) : Host.Outcome State Fault Refusal := jumpIf .jne takenJne a s

/-- JGT (R174). -/
def execJgt (a : Byte) (s : State) : Host.Outcome State Fault Refusal := jumpIf .jgt takenJgt a s

/-- JLT (R175). -/
def execJlt (a : Byte) (s : State) : Host.Outcome State Fault Refusal := jumpIf .jlt takenJlt a s

/-- CALL (R176): push `u8(pc + 1 + n)` and jump to `x[ra]`, which is read before the stack pointer moves (R108). -/
def execCall (a : Byte) (s : State) : Host.Outcome State Fault Refusal :=
  withReg .call a s fun ra =>
    .next ((s.push (s.nextPc Mnemonic.call.format.operandCount)).setPc (s.reg ra))

/-- RET (R177): pop a byte and jump to it. -/
def execRet (s : State) : Host.Outcome State Fault Refusal := .next (s.dropTop.setPc s.top)

/-- HLT (R178): `pc <- u8(pc + 1); halt` (decision D7). -/
def execHlt (s : State) : Host.Outcome State Fault Refusal :=
  .next ((s.advancePast .hlt).setRun .halted)

end Sys2Proof.Machine
end

