-- ==== Sys2Proof/Machine/DataMove.lean ====
section
/-! DEFINITION. LDI and PRN (41_data_move_output.md). -/

namespace Sys2Proof.Machine

/-- LDI (R120): `x[ra] <- imm8; pc <- u8(pc + 3)`. The immediate is never checked. -/
def execLdi (a imm : Byte) (s : State) : Host.Outcome State Fault Refusal :=
  withReg .ldi a s fun ra => .next ((s.setReg ra imm).advancePast .ldi)

/-- PRN (R122): `v <- x[ra]; emit(v); pc <- u8(pc + 2)`. -/
def execPrn (a : Byte) (s : State) : Host.Outcome State Fault Refusal :=
  withReg .prn a s fun ra => .next ((s.emit (s.reg ra)).advancePast .prn)

end Sys2Proof.Machine
end

