-- ==== Sys2Proof/Machine/Stack.lean ====
section
/-! DEFINITION. PUSH and POP (43_stack.md). -/

namespace Sys2Proof.Machine

/-- PUSH (R160). `x[ra]` is read before the stack pointer moves, so `PUSH R7` pushes the old one (R108, decision D5). -/
def execPush (a : Byte) (s : State) : Host.Outcome State Fault Refusal :=
  withReg .push a s fun ra => .next ((s.push (s.reg ra)).advancePast .push)

/-- POP (R161). The destination is written last, so `POP R7` leaves the popped byte in R7 (decision D5). -/
def execPop (a : Byte) (s : State) : Host.Outcome State Fault Refusal :=
  withReg .pop a s fun ra => .next ((s.dropTop.setReg ra s.top).advancePast .pop)

end Sys2Proof.Machine
end

