-- ==== Sys2Proof/Machine/Cycle.lean ====
section
/-! DEFINITION. The instruction cycle of R105. -/

namespace Sys2Proof.Machine

/-- The cycle of a running core (R105): fetch all three bytes (R101, R102), decode (R103), dispatch (R104). -/
def cycle (s : State) : Host.Outcome State Fault Refusal :=
  match decode s.cfg s.fetch with
  | .ok (i, _) => exec i s
  | .error _ => illegalInstruction s

end Sys2Proof.Machine
end

