-- ==== Sys2Proof/Machine/Step.lean ====
section
/-! DEFINITION. One step of the core (R100), and the placement of one instruction where it fetches next. -/

namespace Sys2Proof.Machine

/-- One step. It is enabled exactly when `run = Running` (R100); where it is not, nothing changes and the outcome says
which stop the core is in (log entry 6). A configuration that R7 forbids is refused. -/
def step (s : State) : Host.Outcome State Fault Refusal :=
  if s.cfg.wf then
    match s.run with
    | .running => cycle s
    | .halted => .fault .halted
    | .faulted kind fpc fop => .fault (.failed kind fpc fop)
  else .refused .invalidConfiguration

/-- The state with one instruction's bytes where `step` fetches next, and the core running, as a fetch needs (R100). -/
def State.withFetchWord (s : State) (nbits w : Nat) : State :=
  (s.placeAt s.pc (wordBytes nbits w)).setRun .running

end Sys2Proof.Machine
end

