-- ==== Sys2Proof/Machine/Assembly.lean ====
section
/-! DEFINITION. The assembly statements of R82: their forms, their text and the bytes they assemble to. The syntax has no
weight on execution, which sees bytes only (decision D21). -/

namespace Sys2Proof.Machine

/-- An operand of an assembly statement (R82). -/
inductive AsmOperand where
  /-- `R0` to `R7`. -/
  | reg (r : RegIdx)
  /-- `SP`, which may be written for `R7`. -/
  | sp
  /-- An unsigned decimal number 0 to 255. -/
  | imm (v : Byte)
  deriving DecidableEq, Repr

/-- A statement of R82: a mnemonic and its operands in the order of R75. -/
structure AsmStatement where
  mnemonic : Mnemonic
  operands : List AsmOperand
  deriving DecidableEq, Repr

/-- The register index byte of a register operand (R82). -/
def AsmOperand.regByte : AsmOperand → Option Byte
  | .reg r => some (BitVec.ofNat 8 r.val)
  | .sp => some (BitVec.ofNat 8 spIndex.val)
  | .imm _ => none

/-- The instruction a statement writes, where its operands have the form its mnemonic takes (R82). -/
def AsmStatement.instr (t : AsmStatement) : Option Instr :=
  match t.mnemonic.format, t.operands with
  | .f0, [] => some (t.mnemonic.instr 0 0)
  | .f1r, [p] => p.regByte.map fun a => t.mnemonic.instr a 0
  | .f2r, [p, q] => p.regByte.bind fun a => q.regByte.map fun b => t.mnemonic.instr a b
  | .f2i, [p, .imm v] => p.regByte.map fun a => t.mnemonic.instr a v
  | _, _ => none

/-- The bytes a statement assembles to (R82). -/
def AsmStatement.assemble (c : Config) (t : AsmStatement) : Option (List Byte) := t.instr.map (encode c)

/-- The register operand an index byte 0 to 7 is written as; a larger byte has no name (R82). -/
def asmRegister (b : Byte) : Option AsmOperand :=
  if h : b.toNat < 8 then some (.reg ⟨b.toNat, h⟩) else none

/-- The statement that writes an instruction, where every register byte has a name (R82). -/
def asmOf (i : Instr) : Option AsmStatement :=
  match i.mnemonic.format, i.operandBytes with
  | .f0, _ => some ⟨i.mnemonic, []⟩
  | .f1r, [a] => (asmRegister a).map fun p => ⟨i.mnemonic, [p]⟩
  | .f2r, [a, b] => (asmRegister a).bind fun p => (asmRegister b).map fun q => ⟨i.mnemonic, [p, q]⟩
  | .f2i, [a, v] => (asmRegister a).map fun p => ⟨i.mnemonic, [p, .imm v]⟩
  | _, _ => none

/-- A mnemonic as R76 spells it. -/
def mnemonicText : Mnemonic → String
  | .hlt => "HLT"
  | .ldi => "LDI"
  | .prn => "PRN"
  | .mul => "MUL"
  | .add => "ADD"
  | .sub => "SUB"
  | .div => "DIV"
  | .mod => "MOD"
  | .push => "PUSH"
  | .pop => "POP"
  | .cmp => "CMP"
  | .jmp => "JMP"
  | .call => "CALL"
  | .ret => "RET"
  | .jeq => "JEQ"
  | .jne => "JNE"
  | .jgt => "JGT"
  | .jlt => "JLT"

/-- An operand's text (R82). -/
def AsmOperand.text : AsmOperand → List Char
  | .reg r => 'R' :: Nat.toDigits 10 r.val
  | .sp => ['S', 'P']
  | .imm v => Nat.toDigits 10 v.toNat

/-- A statement's text: the mnemonic, a space before the first operand, and commas between operands (R82). -/
def AsmStatement.text (t : AsmStatement) : List Char :=
  match t.operands with
  | [] => (mnemonicText t.mnemonic).toList
  | p :: ps => (mnemonicText t.mnemonic).toList ++ ' ' :: p.text ++ ps.flatMap fun q => ',' :: q.text

end Sys2Proof.Machine
end

