-- ==== Sys2Proof/Machine/Report.lean ====
section
/-! DEFINITION. What the host reads off the core at the end of a run: the success or failure status of R205 and the
rendering of the output of R123. No step reads any of it. -/

namespace Sys2Proof.Machine

/-- The status a run ends with (R205). The numbers and the message texts are the host's and are not in the source. -/
inductive ExitStatus where
  | success
  | failure
  deriving DecidableEq, Repr

/-- A run that is going on has no status (R113); HLT ends in success and a failure of either kind in failure (R205). -/
def exitStatus : RunState → Option ExitStatus
  | .running => none
  | .halted => some .success
  | .faulted _ _ _ => some .failure

/-- One emitted byte as decimal digits, with no sign and no leading zeros, and a newline (R123). -/
def renderByte (v : Byte) : List Char := Nat.toDigits 10 v.toNat ++ ['\n']

/-- The rendered output: the lines of the emitted bytes in order (R123). -/
def renderOut (out : List Byte) : List Char := out.flatMap renderByte

end Sys2Proof.Machine
end

