-- ==== Sys2Proof/Safety.lean ====
section
/-! DEFINITION. The terms claims are stated in: which register an operand byte names, what two states share, the
invariant of the core, reachability from reset, and what counts as a safe run. -/

namespace Sys2Proof.Machine

/-- The register an operand byte names, in numbers (R106): the byte modulo 8 under `mask`, the byte itself under `fault`. -/
def NamesReg (c : Config) (b : Byte) (r : RegIdx) : Prop :=
  (c.regIndexMode = .mask ∧ r.val = b.toNat % 8) ∨ (c.regIndexMode = .fault ∧ r.val = b.toNat)

/-- Every byte of memory reads as before. -/
def SameMemory (s t : State) : Prop := ∀ a, t.read a = s.read a

/-- Every byte of memory outside one cell reads as before. -/
def SameMemoryExcept (cell : Byte) (s t : State) : Prop := ∀ a, a ≠ cell → t.read a = s.read a

/-- Every register outside a list keeps its value. -/
def SameRegsExcept (written : List RegIdx) (s t : State) : Prop := ∀ r, r ∉ written → t.reg r = s.reg r

/-- The flags, the output, the run state and the machine's parameters are as before. -/
structure SameRest (s t : State) : Prop where
  fl : t.fl = s.fl
  out : t.out = s.out
  run : t.run = s.run
  cfg : t.cfg = s.cfg

/-- The four values `FL` takes (R26). -/
def flLegal (fl : Byte) : Bool := fl == 0x00 || fl == 0x01 || fl == 0x02 || fl == 0x04

/-- What a stopped core's record says of its memory: a failure recorded the pc it kept and the opcode byte there, which
is DIV's or MOD's for an arithmetic failure (R201 to R203); a halt stands one past a HLT byte (R178). -/
def stopRecordLegal (s : State) : Bool :=
  match s.run with
  | .running => true
  | .halted => s.read (s.pc - 1) == 0x01
  | .faulted .decodeFailure fpc fop => fpc == s.pc && fop == s.read s.pc
  | .faulted .arithmeticFailure fpc fop => fpc == s.pc && fop == s.read s.pc && (fop == 0xA3 || fop == 0xA4)

/-- The invariant of the core: parameters as R7 asks, memory in canonical form, `FL` one of its four values (R26), and a
stopped core's record true of its state. -/
def State.inv (s : State) : Bool := s.cfg.wf && s.mem.wf && flLegal s.fl && stopRecordLegal s

/-- The states a run from reset reaches (R230, R100), for a machine's parameters and a program image. -/
inductive Reachable (c : Config) (image : List Byte) : State → Prop where
  /-- Reset with a valid image on a machine whose parameters R7 allows. -/
  | boot (hc : c.wf = true) (hi : imageWf image = true) : Reachable c image (bootState c image)
  /-- One step. -/
  | step {s t : State} (hs : Reachable c image s) (ht : Machine.step s = .next t) : Reachable c image t

/-- A core that has failed (R27). -/
def State.failed (s : State) : Prop := ∃ kind fpc fop, s.run = .faulted kind fpc fop

/-- A safe run: no state it reaches has failed, so it halts in success or goes on (R113). -/
def SafeRun (c : Config) (image : List Byte) : Prop := ∀ s, Reachable c image s → ¬ s.failed

end Sys2Proof.Machine
end

