-- ==== Sys2Proof/Certificates/Slice0/Obligations.lean ====
section
/-! DEFINITION. The statements for the provers. Where a statement rests on a decision of the spec
(spec/92_eei_decisions.md) or on a choice of the model's, its docstring names the decision and the log entry. -/

open Sys2Proof Sys2Proof.Machine

/-! ### Encoding and decoding (30_encoding.md) -/

/-- R84: the worked encoding of the source, the bytes it decodes from, and where reset places its six bytes. -/
def Obligations.WorkedEncodingOfTheSource : Prop :=
  ∀ c : Config,
    encode c (.ldi 0 8) = [0b10000010, 0b00000000, 0b00001000] ∧
    encode c (.prn 0) = [0b01000111, 0b00000000] ∧
    encode c .hlt = [0b00000001] ∧
    decode c [0x82, 0x00, 0x08, 0x47, 0x00, 0x01] = .ok (.ldi 0 8, [0x47, 0x00, 0x01]) ∧
    decode c [0x47, 0x00, 0x01] = .ok (.prn 0, [0x01]) ∧
    decode c [0x01] = .ok (.hlt, []) ∧
    (List.range 7).map (fun a => (bootState c [0x82, 0x00, 0x08, 0x47, 0x00, 0x01]).read (BitVec.ofNat 8 a)) =
      [0x82, 0x00, 0x08, 0x47, 0x00, 0x01, 0x00]

/-- The words of the opcode map (R76), written out bit by bit, decode to the instructions they stand for under the
default parameters. The four conditional jumps' bytes are the spec's defaults from general knowledge (decision D4, log
entry 3), and SUB's, DIV's and MOD's are its reading of an abbreviated cell (N2, log entry 4). -/
def Obligations.SpecWordsDecodeToTheirInstructions : Prop :=
  decodeTableWord 8 0b00000001 = some .hlt ∧
  decodeTableWord 8 0b00010001 = some .ret ∧
  decodeTableWord 24 0b00001000_00000011_10000010 = some (.ldi 3 8) ∧
  decodeTableWord 16 0b00000101_01000111 = some (.prn 5) ∧
  decodeTableWord 24 0b00000001_00000010_10100000 = some (.add 2 1) ∧
  decodeTableWord 24 0b00000001_00000010_10100001 = some (.sub 2 1) ∧
  decodeTableWord 24 0b00000001_00000010_10100010 = some (.mul 2 1) ∧
  decodeTableWord 24 0b00000001_00000010_10100011 = some (.div 2 1) ∧
  decodeTableWord 24 0b00000001_00000010_10100100 = some (.mod 2 1) ∧
  decodeTableWord 24 0b00000001_00000010_10100111 = some (.cmp 2 1) ∧
  decodeTableWord 16 0b00000111_01000101 = some (.push 7) ∧
  decodeTableWord 16 0b00000111_01000110 = some (.pop 7) ∧
  decodeTableWord 16 0b00000011_01010100 = some (.jmp 3) ∧
  decodeTableWord 16 0b00000011_01010000 = some (.call 3) ∧
  decodeTableWord 16 0b00000011_01010101 = some (.jeq 3) ∧
  decodeTableWord 16 0b00000011_01010110 = some (.jne 3) ∧
  decodeTableWord 16 0b00000011_01010111 = some (.jgt 3) ∧
  decodeTableWord 16 0b00000011_01011000 = some (.jlt 3)

/-- Decoding an encoded instruction gives it back with the bytes after it, for every instruction, every operand byte,
and every parameters R7 allows. -/
def Obligations.DecodeOfEncodeGivesTheInstructionBack : Prop :=
  ∀ (c : Config) (i : Instr) (rest : List Byte), c.wf = true → decode c (encode c i ++ rest) = .ok (i, rest)

/-- Where the decoder answers an instruction, its encoding is the bytes it was read from: no bit of a word is dropped,
and a word has one meaning. -/
def Obligations.EncodeOfDecodeGivesTheBytesBack : Prop :=
  ∀ (c : Config) (bs rest : List Byte) (i : Instr), decode c bs = .ok (i, rest) → encode c i ++ rest = bs

/-- R70: an instruction is its opcode byte and `n = op[7:6]` operand bytes, whatever they are and whatever follows; a
byte with `op[7:6] = 3` encodes none. -/
def Obligations.InstructionLengthIsGivenByOpcodeBits7And6 : Prop :=
  ∀ (c : Config) (op : Byte) (rest : List Byte), c.wf = true →
    (operandField op = 3 → decode c (op :: rest) = .error (.illegalOpcode op)) ∧
    (∀ (i : Instr) (tail : List Byte), decode c (op :: rest) = .ok (i, tail) →
      operandField op ≤ 2 ∧ operandField op ≤ rest.length ∧ tail = rest.drop (operandField op) ∧
      (encode c i).length = 1 + operandField op)

/-- The decoder selects a row by all eight bits of the opcode byte, and a byte in no row is rejected, whatever follows it
(R73, R80; 90_conflicts.md C8). -/
def Obligations.OpcodeByteSelectsItsRowExactly : Prop :=
  ∀ (c : Config) (op a b : Byte), c.wf = true →
    (∀ m : Mnemonic, m.opcode c = op →
      ∃ i rest, decode c [op, a, b] = .ok (i, rest) ∧ i.mnemonic = m ∧
        ∀ m' : Mnemonic, m'.opcode c = op → m' = m) ∧
    ((∀ m : Mnemonic, m.opcode c ≠ op) → decode c [op, a, b] = .error (.illegalOpcode op))

/-- The fields of the opcode byte agree with the map, under the default parameters (decision D4, log entry 3; layout as
90_conflicts.md C1 settles it): bits 7:6 are the row's operand count (R77), bit 5 marks the ALU instructions (R72), and
bit 4 the instructions that write the pc themselves (R78). -/
def Obligations.OpcodeFieldsAgreeWithTheMap : Prop :=
  ∀ m : Mnemonic,
    operandField (m.opcode Config.default) = m.format.operandCount ∧
    (aluBit (m.opcode Config.default) = true ↔ m ∈ [.add, .sub, .mul, .div, .mod, .cmp]) ∧
    (setsPcBit (m.opcode Config.default) = true ↔ m ∈ [.jmp, .jeq, .jne, .jgt, .jlt, .call, .ret])

/-- Under the default parameters (decision D4, log entry 3) 238 of the 256 byte values are illegal, among them 0x00,
every byte from 0xC0 on, and the bytes other LS-8 descriptions give to AND, NOT and INC (R79, N3). -/
def Obligations.DefaultMapLeaves238IllegalBytes : Prop :=
  ((List.range 256).filter fun n => lookup Config.default (BitVec.ofNat 8 n) = none).length = 238 ∧
  lookup Config.default 0x00 = none ∧
  (∀ op : Byte, 0xC0 ≤ op.toNat → lookup Config.default op = none) ∧
  lookup Config.default 0xA8 = none ∧ lookup Config.default 0x69 = none ∧ lookup Config.default 0x65 = none

/-- The bytes after a shorter instruction are read and have no effect (R71, R107; decision D23): the second byte after a
one-operand opcode, and both after HLT and RET, whatever they are. -/
def Obligations.UnusedOperandBytesDoNotChangeTheInstruction : Prop :=
  ∀ (c : Config) (m : Mnemonic) (a b a' b' : Byte), c.wf = true →
    (m.format = .f1r →
      ∃ i, decode c [m.opcode c, a, b] = .ok (i, [b]) ∧ decode c [m.opcode c, a, b'] = .ok (i, [b'])) ∧
    (m.format = .f0 →
      ∃ i, decode c [m.opcode c, a, b] = .ok (i, [a, b]) ∧ decode c [m.opcode c, a', b'] = .ok (i, [a', b']))

/-- A statement assembles exactly where its operands have the form its mnemonic takes, `SP` being a register there. Its
bytes are the mnemonic's opcode byte and then one byte for each operand, in order: the index of a register, 7 for `SP`,
an immediate itself. They decode to the instruction of that mnemonic with those operand bytes, whose register bytes are 0
to 7 (R82; decision D21, log entry 21). -/
def Obligations.AssembledBytesDecodeToTheStatement : Prop :=
  ∀ (c : Config) (t : AsmStatement), c.wf = true →
    ((∃ bs, t.assemble c = some bs) ↔
      match t.mnemonic.format with
      | .f0 => t.operands = []
      | .f1r => ∃ p, t.operands = [p] ∧ (p = .sp ∨ ∃ r, p = .reg r)
      | .f2r => ∃ p q, t.operands = [p, q] ∧ (p = .sp ∨ ∃ r, p = .reg r) ∧ (q = .sp ∨ ∃ r, q = .reg r)
      | .f2i => ∃ p v, t.operands = [p, .imm v] ∧ (p = .sp ∨ ∃ r, p = .reg r)) ∧
    (∀ bs, t.assemble c = some bs →
      bs = t.mnemonic.opcode c :: t.operands.map (fun p =>
        match p with
        | .reg r => BitVec.ofNat 8 r.val
        | .sp => 7
        | .imm v => v) ∧
      ∃ i, decode c bs = .ok (i, []) ∧ i.mnemonic = t.mnemonic ∧ bs = t.mnemonic.opcode c :: i.operandBytes ∧
        i.wf .fault = true)

/-- Every instruction whose register bytes are 0 to 7 has a statement that assembles to its encoding (R82; decision D21,
log entry 21); one with a larger register byte has none. -/
def Obligations.NamedInstructionsHaveAStatement : Prop :=
  ∀ (c : Config) (i : Instr),
    (i.wf .fault = true → ∃ t, asmOf i = some t ∧ t.assemble c = some (encode c i)) ∧
    (i.wf .fault = false → asmOf i = none)

/-! ### Reset (10_state.md, 70_reset_and_hazards.md) -/

/-- R32: the state after reset with an image of at most 256 bytes. -/
def Obligations.ResetGivesEveryStateItsResetValue : Prop :=
  ∀ (c : Config) (image : List Byte), image.length ≤ 256 →
    (∀ r : RegIdx, r.val < 7 → (bootState c image).reg r = 0) ∧
    (bootState c image).reg 7 = 0xF4 ∧
    (bootState c image).pc = 0 ∧
    (bootState c image).fl = 0x00 ∧
    (bootState c image).run = .running ∧
    (bootState c image).out = [] ∧
    (∀ (a : Byte) (h : a.toNat < image.length), (bootState c image).read a = image[a.toNat]) ∧
    (∀ a : Byte, image.length ≤ a.toNat → (bootState c image).read a = 0)

/-- The reset input with an image of at most 256 bytes answers the state `bootState` builds from that image and the
machine's parameters, the state R32 describes (`ResetGivesEveryStateItsResetValue` states its values). It keeps nothing of
the earlier state but the parameters, whatever run state it is applied in (R20, R230, R231; decision D19, log entry 15).
It refuses an image of more than 256 bytes (R232; decision D11, log entry 16) and parameters that R7 forbids (decision D4,
log entry 1). -/
def Obligations.ResetInputBuildsTheStateAfresh : Prop :=
  ∀ (image : List Byte) (s : State),
    (s.cfg.wf = true → image.length ≤ 256 →
      applyReset image s = .next (bootState s.cfg image) ∧ (bootState s.cfg image).cfg = s.cfg ∧
        (∀ u : State, u.cfg = s.cfg → applyReset image u = .next (bootState s.cfg image)) ∧
        (s.cfg = Config.default → image = [] → bootState s.cfg image = State.reset)) ∧
    (s.cfg.wf = true → 256 < image.length → applyReset image s = .refused .imageTooLong) ∧
    (s.cfg.wf = false → applyReset image s = .refused .invalidConfiguration)

/-- After reset with the empty image the first step fetches 0x00 at address 0 and fails (R232, an inference of the
spec's from R231 and R79; the record of a failure is decision D6, log entry 5). -/
def Obligations.EmptyImageFailsAtAddressZero : Prop :=
  ∀ c : Config, c.wf = true →
    step (bootState c []) = .next ((bootState c []).setRun (.faulted .decodeFailure 0 0x00))

/-! ### The invariant -/

/-- The invariant holds at reset. Its clauses on parameters and stop records are the model's form of R7, R203 and R178
(log entries 1, 5 and 8), and its clause on memory is the model's canonical form (log entry 20). -/
def Obligations.ResetStateMeetsTheInvariant : Prop := State.reset.inv = true

/-- The invariant holds after reset with any image, under any parameters R7 allows (its clauses: log entries 1, 5, 8 and
20). -/
def Obligations.EveryBootStateMeetsTheInvariant : Prop :=
  ∀ (c : Config) (image : List Byte), c.wf = true → (bootState c image).inv = true

/-- Every step keeps the invariant: parameters as R7 asks (decision D4, log entry 1), memory in the model's canonical form
(log entry 20), `FL` one of its four values (R26), and a stopped core's record true of its state: a failure recorded the
pc it kept and the opcode byte there (decision D6, log entry 5), and a halt stands one past a HLT byte (decision D7, log
entry 8). -/
def Obligations.EveryStepKeepsTheInvariant : Prop :=
  ∀ s t : State, s.inv = true → step s = .next t → t.inv = true

/-- Every state a run of any program image reaches has `FL` one of 0x00, 0x01, 0x02 and 0x04 (R26), a memory in the
model's canonical form (log entry 20), the parameters it began with (log entry 1), and, once it has stopped, a record true
of it: the failing instruction's pc and opcode byte, or a HLT byte behind the pc (R203, R178; decisions D6 and D7, log
entries 5 and 8). -/
def Obligations.EveryReachableStateIsLegal : Prop :=
  ∀ (c : Config) (image : List Byte) (s : State), Reachable c image s →
    (s.fl = 0x00 ∨ s.fl = 0x01 ∨ s.fl = 0x02 ∨ s.fl = 0x04) ∧
    s.mem.wf = true ∧
    s.cfg = c ∧
    (s.run = .halted → s.read (s.pc - 1) = 0x01) ∧
    (∀ kind fpc fop, s.run = .faulted kind fpc fop →
      fpc = s.pc ∧ fop = s.read s.pc ∧ (kind = .arithmeticFailure → fop = 0xA3 ∨ fop = 0xA4))

/-! ### The step (40_instruction_cycle.md) -/

/-- When the three bytes at the pc, wrapping modulo 256 (R57, R102), decode to an instruction, the step of a running core
is exactly that instruction's `exec` at that state: nothing is moved, counted or delayed around it (R105, R112). -/
def Obligations.StepRunsTheDecodedInstruction : Prop :=
  ∀ (s : State) (i : Instr) (rest : List Byte), s.cfg.wf = true → s.run = .running →
    decode s.cfg [s.read s.pc, s.read (s.pc + 1), s.read (s.pc + 2)] = .ok (i, rest) →
    step s = exec i s

/-- A step that fetches a byte in no row raises `DecodeFailure` with the pc and the byte, and changes nothing else, not
even the pc (R103, R201; what a failure records is decision D6, log entry 5). -/
def Obligations.IllegalOpcodeRaisesDecodeFailure : Prop :=
  ∀ s : State, s.cfg.wf = true → s.run = .running → (∀ m : Mnemonic, m.opcode s.cfg ≠ s.read s.pc) →
    step s = .next { s with run := .faulted .decodeFailure s.pc (s.read s.pc) }

/-- In `Halted` and `Faulted` no step is enabled (R100, R208; decision D8): the model's step answers a stop that says
which of the two it is, and no next state (the outcome's form is the model's choice, log entry 6). -/
def Obligations.StoppedCoreTakesNoStep : Prop :=
  ∀ s : State, s.cfg.wf = true →
    (s.run = .halted → step s = .fault .halted) ∧
    (∀ kind fpc fop, s.run = .faulted kind fpc fop → step s = .fault (.failed kind fpc fop))

/-- A running core's step answers a next state for every state exactly where the parameters are as R7 asks: four distinct
jump bytes, none of them one of the fourteen bytes the source gives, each with bits 7:6 = 01. Every other configuration is
refused (decision D4, log entry 1). -/
def Obligations.RunningCoreStepsUnlessParametersAreForbidden : Prop :=
  ∀ s : State, s.run = .running →
    ((([s.cfg.opJeq, s.cfg.opJne, s.cfg.opJgt, s.cfg.opJlt] : List Byte).Nodup ∧
        ∀ j ∈ ([s.cfg.opJeq, s.cfg.opJne, s.cfg.opJgt, s.cfg.opJlt] : List Byte),
          j ∉ ([0x01, 0x82, 0x47, 0xA2, 0xA0, 0xA1, 0xA3, 0xA4, 0x45, 0x46, 0xA7, 0x54, 0x50, 0x11] : List Byte) ∧
          j.toNat / 64 = 1) →
      ∃ t, step s = .next t) ∧
    (¬ (([s.cfg.opJeq, s.cfg.opJne, s.cfg.opJgt, s.cfg.opJlt] : List Byte).Nodup ∧
        ∀ j ∈ ([s.cfg.opJeq, s.cfg.opJne, s.cfg.opJgt, s.cfg.opJlt] : List Byte),
          j ∉ ([0x01, 0x82, 0x47, 0xA2, 0xA0, 0xA1, 0xA3, 0xA4, 0x45, 0x46, 0xA7, 0x54, 0x50, 0x11] : List Byte) ∧
          j.toNat / 64 = 1) →
      step s = .refused .invalidConfiguration)

/-- A failure is precise (R109, R203; decision D6, log entry 5): a step into `Faulted` changes only the run state, and
its record is the pc it keeps and the opcode byte there. -/
def Obligations.FailingStepChangesOnlyTheRunState : Prop :=
  ∀ (s t : State) (kind : FailureKind) (fpc fop : Byte), step s = .next t → t.run = .faulted kind fpc fop →
    fpc = s.pc ∧ fop = s.read s.pc ∧ t = { s with run := .faulted kind fpc fop }

/-- `Halted` is entered by a step exactly where the opcode byte at the pc is HLT's (R27, R178). -/
def Obligations.HaltedIsEnteredOnlyByHlt : Prop :=
  ∀ s t : State, step s = .next t → (t.run = .halted ↔ s.read s.pc = 0x01)

/-- What an instruction does to the run state (R200, R201, R202, R207; decisions D2, D6 and D16, log entries 2, 5 and
12): HLT halts; a used register byte above 7 under `fault` raises `DecodeFailure`, before any other check; DIV and MOD
with a zero divisor raise `ArithmeticFailure`; and nothing else changes it. -/
def Obligations.RunStateChangesOnlyByHltAndFailures : Prop :=
  ∀ (i : Instr) (s t : State), exec i s = .next t →
    (i.wf s.cfg.regIndexMode = false →
      t.run = .faulted .decodeFailure s.pc (i.mnemonic.opcode s.cfg)) ∧
    (i.wf s.cfg.regIndexMode = true →
      (i = .hlt → t.run = .halted) ∧
      (∀ a b rb, i = .div a b ∨ i = .mod a b → NamesReg s.cfg b rb → s.reg rb = 0 →
        t.run = .faulted .arithmeticFailure s.pc (i.mnemonic.opcode s.cfg)) ∧
      (i ≠ .hlt → (∀ a b rb, i = .div a b ∨ i = .mod a b → NamesReg s.cfg b rb → s.reg rb ≠ 0) → t.run = s.run))

/-- No step changes the machine's parameters (R6): the model's own field (log entry 1). -/
def Obligations.NoStepChangesTheParameters : Prop :=
  ∀ s t : State, step s = .next t → t.cfg = s.cfg

/-- Under `fault`, an instruction that uses a register byte above 7 raises `DecodeFailure` with the pc and its opcode
byte and changes nothing else, even where its divisor would be zero (R106, R207; decision D2, log entry 2). -/
def Obligations.RegisterByteAbove7FailsInFaultMode : Prop :=
  ∀ (i : Instr) (s : State), s.cfg.regIndexMode = .fault → (∃ b ∈ i.registerBytes, 7 < b.toNat) →
    exec i s = .next { s with run := .faulted .decodeFailure s.pc (i.mnemonic.opcode s.cfg) }

/-- For register bytes 0 to 7 the two register-index modes agree (R106; decision D2, log entry 2): the same instruction
gives the same state in either. -/
def Obligations.RegisterIndexModesAgreeUpTo7 : Prop :=
  ∀ (i : Instr) (s t : State), (∀ b ∈ i.registerBytes, b.toNat ≤ 7) →
    exec i { s with cfg := { s.cfg with regIndexMode := .mask } } = .next t →
    t.cfg.regIndexMode = .mask ∧
    exec i { s with cfg := { s.cfg with regIndexMode := .fault } } =
      .next { t with cfg := { t.cfg with regIndexMode := .fault } }

/-! ### What reaches each piece of state -/

/-- R53: no instruction writes memory but PUSH and CALL, which write the one cell below the stack pointer, and none reads
it but POP and RET, which read the one cell at the stack pointer; the fetch reads the three bytes from the pc on. That
nothing else reads memory is said by running an instruction in two memories, which for POP and RET agree at the stack
pointer: it changes everything outside memory alike, and the byte a PUSH or CALL stores is the same in both. -/
def Obligations.OnlyStackInstructionsReachMemory : Prop :=
  (∀ s : State, s.fetch = [s.read s.pc, s.read (s.pc + 1), s.read (s.pc + 2)]) ∧
  ∀ (i : Instr) (s t : State), exec i s = .next t →
    ((∀ a, i ≠ .push a ∧ i ≠ .call a) → SameMemory s t) ∧
    (s.pushAddr = u8 ((s.reg 7).toNat - 1) ∧ SameMemoryExcept s.pushAddr s t) ∧
    (∀ m : Memory, (i = .ret ∨ (∃ a, i = .pop a) → m.read (s.reg 7) = s.read (s.reg 7)) →
      ∃ t', exec i { s with mem := m } = .next t' ∧ { t' with mem := t.mem } = t ∧
        ((∃ a, i = .push a ∨ i = .call a) → i.wf s.cfg.regIndexMode = true →
          t'.read s.pushAddr = t.read s.pushAddr))

/-- Only CMP writes `FL` and only the conditional jumps read it; no instruction moves it to a register or memory (R25).
CMP leaves bits 7:3 zero and exactly one of E, G and L set, by an unsigned comparison (R26, R136; decision D15, log
entry 12). -/
def Obligations.FlagsAreWrittenByCmpAndReadByJumps : Prop :=
  ∀ (i : Instr) (s t : State), exec i s = .next t →
    ((∀ a b, i ≠ .cmp a b) → t.fl = s.fl) ∧
    (∀ a b ra rb, i = .cmp a b → NamesReg s.cfg a ra → NamesReg s.cfg b rb →
      (flagE t.fl = true ↔ (s.reg ra).toNat = (s.reg rb).toNat) ∧
      (flagG t.fl = true ↔ (s.reg rb).toNat < (s.reg ra).toNat) ∧
      (flagL t.fl = true ↔ (s.reg ra).toNat < (s.reg rb).toNat) ∧
      t.fl.toNat < 8) ∧
    ((∀ a, i ≠ .jeq a ∧ i ≠ .jne a ∧ i ≠ .jgt a ∧ i ≠ .jlt a) →
      ∀ fl : Byte, ∃ t', exec i { s with fl := fl } = .next t' ∧ { t' with fl := t.fl } = t)

/-- Only PRN adds to the output, one byte, and no instruction reads it (R28; its form as a byte list is decision D10, log
entry 13). -/
def Obligations.OutputIsWrittenByPrnAlone : Prop :=
  ∀ (i : Instr) (s t : State), exec i s = .next t →
    ((∀ a, i ≠ .prn a) → t.out = s.out) ∧
    (∀ a ra, i = .prn a → NamesReg s.cfg a ra → t.out = s.out ++ [s.reg ra]) ∧
    (∀ o : List Byte, ∃ t', exec i { s with out := o } = .next t' ∧
      t'.out = o ++ t.out.drop s.out.length ∧ { t' with out := t.out } = t)

/-- The table of R23, an inference of the spec's: LDI and the ALU instructions but CMP write only their destination, POP
its destination and register 7, PUSH, CALL and RET register 7, and the rest none; whether or not the instruction raises. -/
def Obligations.EachInstructionWritesOnlyItsRegisters : Prop :=
  ∀ (i : Instr) (s t : State) (r : RegIdx), exec i s = .next t → t.reg r ≠ s.reg r →
    (∃ a imm, i = .ldi a imm ∧ NamesReg s.cfg a r) ∨
    (∃ a b, (i = .add a b ∨ i = .sub a b ∨ i = .mul a b ∨ i = .div a b ∨ i = .mod a b) ∧ NamesReg s.cfg a r) ∨
    (∃ a, i = .pop a ∧ (r = 7 ∨ NamesReg s.cfg a r)) ∨
    ((∃ a, i = .push a ∨ i = .call a) ∧ r = 7) ∨
    (i = .ret ∧ r = 7)

/-- Every read returns the byte of the most recent write to its address, or the byte from before if there was none, for
any sequence of writes (R60, an inference of the spec's from R51 and R52). -/
def Obligations.ReadReturnsTheMostRecentWrite : Prop :=
  ∀ (s : State) (ws : List (Byte × Byte)) (a : Byte),
    (ws.foldl (fun u w => u.write w.1 w.2) s).read a =
      match ws.reverse.find? (fun w => w.1 == a) with
      | some w => w.2
      | none => s.read a

/-! ### Data move and output (41_data_move_output.md) -/

/-- LDI (R120) loads its immediate unchanged into the register its first byte names, register 7 included, and advances by
3 modulo 256 (decision D1, log entry 9); which register a byte names is R106 (decision D2, log entry 2). -/
def Obligations.LdiLoadsItsImmediate : Prop :=
  ∀ (s : State) (a imm : Byte) (ra : RegIdx), NamesReg s.cfg a ra →
    ∃ t, exec (.ldi a imm) s = .next t ∧ t.reg ra = imm ∧ t.pc = u8 (s.pc.toNat + 3) ∧
      SameRegsExcept [ra] s t ∧ SameMemory s t ∧ SameRest s t

/-- PRN (R122) appends its register's value to the output, changes no register and no byte of memory, and advances by 2
(decisions D1, D2 and D10, log entries 2, 9 and 13). -/
def Obligations.PrnEmitsItsRegister : Prop :=
  ∀ (s : State) (a : Byte) (ra : RegIdx), NamesReg s.cfg a ra →
    ∃ t, exec (.prn a) s = .next t ∧ t.out = s.out ++ [s.reg ra] ∧ t.pc = u8 (s.pc.toNat + 2) ∧
      SameRegsExcept [] s t ∧ SameMemory s t ∧ t.fl = s.fl ∧ t.run = s.run ∧ t.cfg = s.cfg

/-- LDI Rr,v and then PRN Rr emits exactly v (R121, an inference of the spec's from R120 and R122): two steps of a
running core from their five bytes. -/
def Obligations.LdiThenPrnEmitsTheImmediate : Prop :=
  ∀ (s : State) (a v : Byte) (r : RegIdx), s.cfg.wf = true → s.run = .running → NamesReg s.cfg a r →
    s.read s.pc = 0x82 → s.read (s.pc + 1) = a → s.read (s.pc + 2) = v →
    s.read (s.pc + 3) = 0x47 → s.read (s.pc + 4) = a →
    ∃ t u, step s = .next t ∧ step t = .next u ∧ u.out = s.out ++ [v] ∧ u.run = .running ∧ u.pc = s.pc + 5

/-- The host's rendering of the output (R123; decision D10, log entry 13): no bytes render to no text, a byte's line is
its decimal digits and one newline, the lines stand in order with nothing else, and so the text determines the bytes. -/
def Obligations.RenderedOutputDeterminesTheBytes : Prop :=
  renderOut [] = [] ∧
  (∀ (out : List Byte) (v : Byte), renderOut (out ++ [v]) = renderOut out ++ (toString v.toNat).toList ++ ['\n']) ∧
  (∀ out out' : List Byte, renderOut out = renderOut out' → out = out')

/-- The status a run ends with (R205; decision D22, log entry 14): a reachable state has none exactly while a step is
enabled in it (R113), success exactly if it halted, and failure exactly if it failed. The halted case is read off the
outcome `step` answers there, whose form is the model's choice (log entry 6). -/
def Obligations.RunHasAStatusExactlyWhenItHasEnded : Prop :=
  ∀ (c : Config) (image : List Byte) (s : State), Reachable c image s →
    (exitStatus s.run = none ↔ ∃ t, step s = .next t) ∧
    (exitStatus s.run = some .success ↔ step s = .fault .halted) ∧
    (exitStatus s.run = some .failure ↔ s.failed)

/-! ### The ALU (42_alu.md) -/

/-- R130: an ALU instruction reads its two registers, gives their values to the pure function `aluApply`, and writes the
byte it answers to its first register, or for CMP the flags it answers to `FL`, and advances by 3; only CMP's answer is
flags, and only DIV's and MOD's can be neither. A result that leaves 0 to 255 wraps modulo 256. -/
def Obligations.AluInstructionsWriteBackWhatTheAluAnswers : Prop :=
  ∀ (s : State) (a b : Byte) (ra rb : RegIdx) (i : Instr) (op : AluOp),
    NamesReg s.cfg a ra → NamesReg s.cfg b rb →
    (i, op) ∈ [(Instr.add a b, AluOp.add), (.sub a b, .sub), (.mul a b, .mul), (.div a b, .div), (.mod a b, .mod),
      (.cmp a b, .cmp)] →
    i.mnemonic.format = .f2r ∧ (encode s.cfg i).length = 3 ∧
    (∀ v, aluApply op (s.reg ra) (s.reg rb) = .value v →
      exec i s = .next ((s.setReg ra v).setPc (s.pc + 3))) ∧
    (∀ fl, aluApply op (s.reg ra) (s.reg rb) = .flags fl →
      op = .cmp ∧ exec i s = .next ((s.setFl fl).setPc (s.pc + 3))) ∧
    (aluApply op (s.reg ra) (s.reg rb) = .zeroDivisor → op = .div ∨ op = .mod) ∧
    (op = .cmp → ∃ fl, aluApply op (s.reg ra) (s.reg rb) = .flags fl) ∧
    (∀ x y : Byte, aluApply .add x y = .value (u8 ((x.toNat : Int) + y.toNat)) ∧
      aluApply .sub x y = .value (u8 ((x.toNat : Int) - y.toNat)) ∧
      aluApply .mul x y = .value (u8 ((x.toNat : Int) * y.toNat)))

/-- ADD (R131): the sum modulo 256, with no flag written (decisions D1 and D2, log entries 2 and 9). -/
def Obligations.AddWritesTheSumModulo256 : Prop :=
  ∀ (s : State) (a b : Byte) (ra rb : RegIdx), NamesReg s.cfg a ra → NamesReg s.cfg b rb →
    ∃ t, exec (.add a b) s = .next t ∧
      (t.reg ra).toNat = ((s.reg ra).toNat + (s.reg rb).toNat) % 256 ∧ t.pc = u8 (s.pc.toNat + 3) ∧
      SameRegsExcept [ra] s t ∧ SameMemory s t ∧ SameRest s t

/-- SUB (R132): the difference modulo 256, with no flag written (decisions D1 and D2, log entries 2 and 9). -/
def Obligations.SubWritesTheDifferenceModulo256 : Prop :=
  ∀ (s : State) (a b : Byte) (ra rb : RegIdx), NamesReg s.cfg a ra → NamesReg s.cfg b rb →
    ∃ t, exec (.sub a b) s = .next t ∧
      (t.reg ra).toNat = ((s.reg ra).toNat + 256 - (s.reg rb).toNat) % 256 ∧ t.pc = u8 (s.pc.toNat + 3) ∧
      SameRegsExcept [ra] s t ∧ SameMemory s t ∧ SameRest s t

/-- MUL (R133): the low eight bits of the product, with no flag written (decisions D1 and D2, log entries 2 and 9). -/
def Obligations.MulWritesTheProductModulo256 : Prop :=
  ∀ (s : State) (a b : Byte) (ra rb : RegIdx), NamesReg s.cfg a ra → NamesReg s.cfg b rb →
    ∃ t, exec (.mul a b) s = .next t ∧
      (t.reg ra).toNat = ((s.reg ra).toNat * (s.reg rb).toNat) % 256 ∧ t.pc = u8 (s.pc.toNat + 3) ∧
      SameRegsExcept [ra] s t ∧ SameMemory s t ∧ SameRest s t

/-- DIV (R134) with a nonzero divisor: the unsigned quotient rounded toward zero (decision D16, log entry 12; D1 and D2,
log entries 2 and 9). -/
def Obligations.DivWritesTheUnsignedQuotient : Prop :=
  ∀ (s : State) (a b : Byte) (ra rb : RegIdx), NamesReg s.cfg a ra → NamesReg s.cfg b rb → s.reg rb ≠ 0 →
    ∃ t, exec (.div a b) s = .next t ∧
      (t.reg ra).toNat = (s.reg ra).toNat / (s.reg rb).toNat ∧ t.pc = u8 (s.pc.toNat + 3) ∧
      SameRegsExcept [ra] s t ∧ SameMemory s t ∧ SameRest s t

/-- MOD (R135) with a nonzero divisor: the unsigned remainder, below the divisor, which with DIV's quotient gives the
dividend back (R135, R146; decision D16, log entry 12; D1 and D2, log entries 2 and 9). -/
def Obligations.ModWritesTheUnsignedRemainder : Prop :=
  ∀ (s : State) (a b : Byte) (ra rb : RegIdx), NamesReg s.cfg a ra → NamesReg s.cfg b rb → s.reg rb ≠ 0 →
    ∃ t, exec (.mod a b) s = .next t ∧
      (t.reg ra).toNat = (s.reg ra).toNat % (s.reg rb).toNat ∧ (t.reg ra).toNat < (s.reg rb).toNat ∧
      (∃ q, exec (.div a b) s = .next q ∧
        (q.reg ra).toNat * (s.reg rb).toNat + (t.reg ra).toNat = (s.reg ra).toNat) ∧
      t.pc = u8 (s.pc.toNat + 3) ∧ SameRegsExcept [ra] s t ∧ SameMemory s t ∧ SameRest s t

/-- DIV and MOD with a zero divisor raise `ArithmeticFailure` with the pc and the opcode byte, and change nothing else
(R134, R135, R202; decision D6, log entry 5; 90_conflicts.md C6). -/
def Obligations.ZeroDivisorRaisesArithmeticFailure : Prop :=
  ∀ (s : State) (a b : Byte) (ra rb : RegIdx), NamesReg s.cfg a ra → NamesReg s.cfg b rb → s.reg rb = 0 →
    exec (.div a b) s = .next { s with run := .faulted .arithmeticFailure s.pc 0xA3 } ∧
    exec (.mod a b) s = .next { s with run := .faulted .arithmeticFailure s.pc 0xA4 }

/-- CMP (R136): 0x01, 0x02 or 0x04 into the whole of `FL` by an unsigned comparison (decision D15, log entry 12), with no
register and no byte of memory written. -/
def Obligations.CmpSetsExactlyOneFlag : Prop :=
  ∀ (s : State) (a b : Byte) (ra rb : RegIdx), NamesReg s.cfg a ra → NamesReg s.cfg b rb →
    ∃ t, exec (.cmp a b) s = .next t ∧
      ((s.reg ra).toNat = (s.reg rb).toNat → t.fl = 0x01) ∧
      ((s.reg rb).toNat < (s.reg ra).toNat → t.fl = 0x02) ∧
      ((s.reg ra).toNat < (s.reg rb).toNat → t.fl = 0x04) ∧
      t.pc = u8 (s.pc.toNat + 3) ∧ SameRegsExcept [] s t ∧ SameMemory s t ∧
      t.out = s.out ∧ t.run = s.run ∧ t.cfg = s.cfg

/-- The eight ALU operations no opcode reaches (R138 to R145; decision D14, and general knowledge for the shift amount,
log entry 11): bitwise AND, OR and XOR, the complement, shifts by the whole of `b`, and the two steps by one. -/
def Obligations.AluOnlyOperationsHaveTheirConventionalMeaning : Prop :=
  ∀ a b : Byte,
    (∃ v, aluApply .and a b = .value v ∧ ∀ k, v.getLsbD k = (a.getLsbD k && b.getLsbD k)) ∧
    (∃ v, aluApply .or a b = .value v ∧ ∀ k, v.getLsbD k = (a.getLsbD k || b.getLsbD k)) ∧
    (∃ v, aluApply .xor a b = .value v ∧ ∀ k, v.getLsbD k = (a.getLsbD k != b.getLsbD k)) ∧
    (∃ v, aluApply .not a b = .value v ∧ v.toNat = 255 - a.toNat ∧ v = ~~~a) ∧
    (∃ v, aluApply .shl a b = .value v ∧ v.toNat = a.toNat * 2 ^ b.toNat % 256 ∧ (8 ≤ b.toNat → v = 0)) ∧
    (∃ v, aluApply .shr a b = .value v ∧ v.toNat = a.toNat / 2 ^ b.toNat ∧ (8 ≤ b.toNat → v = 0)) ∧
    (∃ v, aluApply .inc a b = .value v ∧ v.toNat = (a.toNat + 1) % 256) ∧
    (∃ v, aluApply .dec a b = .value v ∧ v.toNat = (a.toNat + 255) % 256)

/-! ### The stack (43_stack.md) -/

/-- PUSH (R160): the stack pointer goes down by one modulo 256 with no check (decision D18, log entry 10), and the cell
it then points at takes the value the register had before it moved, register 7's too (decision D5, log entry 7). -/
def Obligations.PushStoresBelowTheStackPointer : Prop :=
  ∀ (s : State) (a : Byte) (ra : RegIdx), NamesReg s.cfg a ra →
    ∃ t, exec (.push a) s = .next t ∧
      s.pushAddr = u8 ((s.reg 7).toNat - 1) ∧ t.reg 7 = s.pushAddr ∧ t.read s.pushAddr = s.reg ra ∧
      t.pc = u8 (s.pc.toNat + 2) ∧
      SameRegsExcept [7] s t ∧ SameMemoryExcept s.pushAddr s t ∧ SameRest s t

/-- POP (R161): the destination takes the byte at the stack pointer, which goes up by one modulo 256 with no check
(decision D18, log entry 10); into register 7 the popped byte is final (decision D5, log entry 7). No memory changes. -/
def Obligations.PopLoadsFromTheStackPointer : Prop :=
  ∀ (s : State) (a : Byte) (ra : RegIdx), NamesReg s.cfg a ra →
    ∃ t, exec (.pop a) s = .next t ∧
      t.reg ra = s.read (s.reg 7) ∧ (ra ≠ 7 → t.reg 7 = u8 ((s.reg 7).toNat + 1)) ∧
      t.pc = u8 (s.pc.toNat + 2) ∧
      SameRegsExcept [ra, 7] s t ∧ SameMemory s t ∧ SameRest s t

/-- PUSH Ra then POP Rb, neither of them register 7, copies the register and leaves the stack pointer as it was; the cell
keeps the pushed byte (R162, an inference of the spec's from R160 and R161). -/
def Obligations.PushThenPopCopiesTheRegister : Prop :=
  ∀ (s : State) (a b : Byte) (ra rb : RegIdx), NamesReg s.cfg a ra → NamesReg s.cfg b rb → ra ≠ 7 → rb ≠ 7 →
    ∃ t u, exec (.push a) s = .next t ∧ exec (.pop b) t = .next u ∧
      u.reg rb = s.reg ra ∧ u.reg 7 = s.reg 7 ∧ u.read s.pushAddr = s.reg ra ∧ SameRegsExcept [rb] s u

/-- Fetch is coherent with the stack's writes (R62, R236; decision D9, log entry 17). A step that fetches a PUSH or a CALL
runs it with the bytes fetched, wherever its push lands, its own three bytes included. After it memory holds the pushed
byte at the cell below the old stack pointer and the old bytes everywhere else, the next fetch reads exactly that, and the
next step runs the instruction those bytes encode; so a pushed HLT byte at the next pc halts the core. The pushed byte is
PUSH's register or CALL's return address modulo 256 (decision D1, log entry 9), and a register that is the stack pointer
is read before it moves (decision D5, log entry 7). -/
def Obligations.PushedBytesAreFetchedByLaterCycles : Prop :=
  ∀ (s : State) (a v next : Byte) (r : RegIdx), s.cfg.wf = true → s.run = .running → NamesReg s.cfg a r →
    s.read (s.pc + 1) = a →
    (s.read s.pc = 0x45 ∧ v = s.reg r ∧ next = s.pc + 2 ∨ s.read s.pc = 0x50 ∧ v = s.pc + 2 ∧ next = s.reg r) →
    ∃ t, step s = .next t ∧ t.pc = next ∧ t.run = .running ∧
      (∀ x, t.read x = if x = s.pushAddr then v else s.read x) ∧
      t.fetch = [next, next + 1, next + 2].map (fun x => if x = s.pushAddr then v else s.read x) ∧
      (∀ i rest, decode s.cfg ([next, next + 1, next + 2].map (fun x => if x = s.pushAddr then v else s.read x)) =
        .ok (i, rest) → step t = exec i t) ∧
      (s.pushAddr = next → v = 0x01 → ∃ u, step t = .next u ∧ u.run = .halted ∧ u.pc = next + 1)

/-! ### Control flow (44_control_flow.md) -/

/-- JMP (R170) puts its register's value in the pc and changes nothing else (decision D2, log entry 2). -/
def Obligations.JmpGoesToItsRegister : Prop :=
  ∀ (s : State) (a : Byte) (ra : RegIdx), NamesReg s.cfg a ra →
    ∃ t, exec (.jmp a) s = .next t ∧ t.pc = s.reg ra ∧
      SameRegsExcept [] s t ∧ SameMemory s t ∧ SameRest s t

/-- The conditional jumps (R171 to R175) go to their register's value when their condition on `FL` holds: bit 0 set, bit 0
clear, bit 1 set, bit 2 set; otherwise they advance by 2 (decision D3, log entry 18). Nothing but the pc changes. -/
def Obligations.ConditionalJumpsFollowTheirFlag : Prop :=
  ∀ (s : State) (a : Byte) (ra : RegIdx) (i : Instr) (taken : Prop), NamesReg s.cfg a ra →
    (i = .jeq a ∧ (taken ↔ s.fl.getLsbD 0 = true) ∨
     i = .jne a ∧ (taken ↔ s.fl.getLsbD 0 = false) ∨
     i = .jgt a ∧ (taken ↔ s.fl.getLsbD 1 = true) ∨
     i = .jlt a ∧ (taken ↔ s.fl.getLsbD 2 = true)) →
    ∃ t, exec i s = .next t ∧ (taken → t.pc = s.reg ra) ∧ (¬ taken → t.pc = u8 (s.pc.toNat + 2)) ∧
      SameRegsExcept [] s t ∧ SameMemory s t ∧ SameRest s t

/-- CALL (R176) pushes the address after itself, modulo 256 (decision D1, log entry 9), and goes to the value its register
had before the stack pointer moved, register 7's too (decision D5, log entry 7). -/
def Obligations.CallPushesTheReturnAddress : Prop :=
  ∀ (s : State) (a : Byte) (ra : RegIdx), NamesReg s.cfg a ra →
    ∃ t, exec (.call a) s = .next t ∧
      s.pushAddr = u8 ((s.reg 7).toNat - 1) ∧ t.reg 7 = s.pushAddr ∧ t.read s.pushAddr = u8 (s.pc.toNat + 2) ∧
      t.pc = s.reg ra ∧
      SameRegsExcept [7] s t ∧ SameMemoryExcept s.pushAddr s t ∧ SameRest s t

/-- R177: RET is the one byte 0x11, whatever follows it; it pops the byte at the stack pointer into the pc, with no check
and no exception, and changes only the pc and register 7. -/
def Obligations.RetPopsThePc : Prop :=
  ∀ (s : State) (after : List Byte),
    encode s.cfg .ret = [0b00010001] ∧ Mnemonic.ret.format = .f0 ∧ setsPcBit 0b00010001 = true ∧
    decode s.cfg (0x11 :: after) = .ok (.ret, after) ∧
    ∃ t, exec .ret s = .next t ∧ t.pc = s.read (s.reg 7) ∧ t.reg 7 = u8 ((s.reg 7).toNat + 1) ∧
      SameRegsExcept [7] s t ∧ SameMemory s t ∧ SameRest s t

/-- HLT (R178) halts and changes nothing else but the pc, which advances by 1 (decision D7, log entry 8). -/
def Obligations.HltHaltsAndAdvances : Prop :=
  ∀ s : State,
    ∃ t, exec .hlt s = .next t ∧ t.run = .halted ∧ t.pc = u8 (s.pc.toNat + 1) ∧
      SameRegsExcept [] s t ∧ SameMemory s t ∧ t.fl = s.fl ∧ t.out = s.out ∧ t.cfg = s.cfg

/-- A subroutine that leaves the stack pointer as CALL set it and the return address in its cell resumes, by RET, at the
instruction after the CALL with the stack pointer as before it (R179, an inference of the spec's from R176 and R177). -/
def Obligations.RetResumesAfterTheCall : Prop :=
  ∀ (s t u : State) (a : Byte) (ra : RegIdx), NamesReg s.cfg a ra → exec (.call a) s = .next t →
    u.reg 7 = t.reg 7 → u.read (u.reg 7) = t.read (u.reg 7) →
    t.pc = s.reg ra ∧ ∃ v, exec .ret u = .next v ∧ v.pc = s.pc + 2 ∧ v.reg 7 = s.reg 7

/-- After a CMP, JEQ, JGT and JLT are taken exactly for equal, greater and less operands, and JNE exactly where JEQ is not
(R180, an inference of the spec's; decisions D3 and D15, log entries 12 and 18). The jump's target differs from the
address after it, so that the two can be told apart. -/
def Obligations.BranchesAgreeWithTheComparison : Prop :=
  ∀ (s t : State) (a b j : Byte) (ra rb rj : RegIdx), NamesReg s.cfg a ra → NamesReg s.cfg b rb → NamesReg s.cfg j rj →
    exec (.cmp a b) s = .next t → t.reg rj ≠ t.pc + 2 →
    ∃ e n g l, exec (.jeq j) t = .next e ∧ exec (.jne j) t = .next n ∧
      exec (.jgt j) t = .next g ∧ exec (.jlt j) t = .next l ∧
      (e.pc = t.reg rj ↔ (s.reg ra).toNat = (s.reg rb).toNat) ∧
      (n.pc = t.reg rj ↔ (s.reg ra).toNat ≠ (s.reg rb).toNat) ∧
      (g.pc = t.reg rj ↔ (s.reg rb).toNat < (s.reg ra).toNat) ∧
      (l.pc = t.reg rj ↔ (s.reg ra).toNat < (s.reg rb).toNat)

/-- A jump to its own address is a run that does not end (R113, R170): any number of steps gives the same state. -/
def Obligations.JumpToItselfNeverEnds : Prop :=
  ∀ (s : State) (a : Byte) (ra : RegIdx), s.cfg.wf = true → s.run = .running → NamesReg s.cfg a ra →
    s.read s.pc = 0x54 → s.read (s.pc + 1) = a → s.reg ra = s.pc →
    ∀ k : Nat, Sys2Proof.core.run k s = .next s
end

