-- ==== Sys2Proof/Laws/State.lean ====
section
/-! SUPPORT. What each update of the state leaves and sets: one lemma for each field and update, so that no proof unfolds
a record update. -/

namespace Sys2Proof.Machine

variable (s : State) (r : RegIdx) (a v : Byte) (n : Nat) (k : RunState)

@[simp] theorem setReg_cfg : (s.setReg r v).cfg = s.cfg := rfl
@[simp] theorem setReg_pc : (s.setReg r v).pc = s.pc := rfl
@[simp] theorem setReg_fl : (s.setReg r v).fl = s.fl := rfl
@[simp] theorem setReg_run : (s.setReg r v).run = s.run := rfl
@[simp] theorem setReg_out : (s.setReg r v).out = s.out := rfl
@[simp] theorem setReg_mem : (s.setReg r v).mem = s.mem := rfl
@[simp] theorem setReg_read : (s.setReg r v).read a = s.read a := rfl

@[simp] theorem setPc_cfg : (s.setPc v).cfg = s.cfg := rfl
@[simp] theorem setPc_x : (s.setPc v).x = s.x := rfl
@[simp] theorem setPc_pc : (s.setPc v).pc = v := rfl
@[simp] theorem setPc_fl : (s.setPc v).fl = s.fl := rfl
@[simp] theorem setPc_run : (s.setPc v).run = s.run := rfl
@[simp] theorem setPc_out : (s.setPc v).out = s.out := rfl
@[simp] theorem setPc_mem : (s.setPc v).mem = s.mem := rfl
@[simp] theorem setPc_reg : (s.setPc v).reg r = s.reg r := rfl
@[simp] theorem setPc_read : (s.setPc v).read a = s.read a := rfl

@[simp] theorem setFl_cfg : (s.setFl v).cfg = s.cfg := rfl
@[simp] theorem setFl_x : (s.setFl v).x = s.x := rfl
@[simp] theorem setFl_pc : (s.setFl v).pc = s.pc := rfl
@[simp] theorem setFl_fl : (s.setFl v).fl = v := rfl
@[simp] theorem setFl_run : (s.setFl v).run = s.run := rfl
@[simp] theorem setFl_out : (s.setFl v).out = s.out := rfl
@[simp] theorem setFl_mem : (s.setFl v).mem = s.mem := rfl
@[simp] theorem setFl_reg : (s.setFl v).reg r = s.reg r := rfl
@[simp] theorem setFl_read : (s.setFl v).read a = s.read a := rfl

@[simp] theorem setRun_cfg : (s.setRun k).cfg = s.cfg := rfl
@[simp] theorem setRun_x : (s.setRun k).x = s.x := rfl
@[simp] theorem setRun_pc : (s.setRun k).pc = s.pc := rfl
@[simp] theorem setRun_fl : (s.setRun k).fl = s.fl := rfl
@[simp] theorem setRun_run : (s.setRun k).run = k := rfl
@[simp] theorem setRun_out : (s.setRun k).out = s.out := rfl
@[simp] theorem setRun_mem : (s.setRun k).mem = s.mem := rfl
@[simp] theorem setRun_reg : (s.setRun k).reg r = s.reg r := rfl
@[simp] theorem setRun_read : (s.setRun k).read a = s.read a := rfl

@[simp] theorem emit_cfg : (s.emit v).cfg = s.cfg := rfl
@[simp] theorem emit_x : (s.emit v).x = s.x := rfl
@[simp] theorem emit_pc : (s.emit v).pc = s.pc := rfl
@[simp] theorem emit_fl : (s.emit v).fl = s.fl := rfl
@[simp] theorem emit_run : (s.emit v).run = s.run := rfl
@[simp] theorem emit_out : (s.emit v).out = s.out ++ [v] := rfl
@[simp] theorem emit_mem : (s.emit v).mem = s.mem := rfl
@[simp] theorem emit_reg : (s.emit v).reg r = s.reg r := rfl
@[simp] theorem emit_read : (s.emit v).read a = s.read a := rfl

@[simp] theorem write_cfg : (s.write a v).cfg = s.cfg := rfl
@[simp] theorem write_x : (s.write a v).x = s.x := rfl
@[simp] theorem write_pc : (s.write a v).pc = s.pc := rfl
@[simp] theorem write_fl : (s.write a v).fl = s.fl := rfl
@[simp] theorem write_run : (s.write a v).run = s.run := rfl
@[simp] theorem write_out : (s.write a v).out = s.out := rfl
@[simp] theorem write_mem : (s.write a v).mem = s.mem.write a v := rfl
@[simp] theorem write_reg : (s.write a v).reg r = s.reg r := rfl

@[simp] theorem advance_cfg : (s.advance n).cfg = s.cfg := rfl
@[simp] theorem advance_x : (s.advance n).x = s.x := rfl
@[simp] theorem advance_pc : (s.advance n).pc = s.nextPc n := rfl
@[simp] theorem advance_fl : (s.advance n).fl = s.fl := rfl
@[simp] theorem advance_run : (s.advance n).run = s.run := rfl
@[simp] theorem advance_out : (s.advance n).out = s.out := rfl
@[simp] theorem advance_mem : (s.advance n).mem = s.mem := rfl
@[simp] theorem advance_reg : (s.advance n).reg r = s.reg r := rfl
@[simp] theorem advance_read : (s.advance n).read a = s.read a := rfl

/-- An instruction's advance is the advance by its format's operand count. -/
@[simp] theorem advancePast_eq (m : Mnemonic) : s.advancePast m = s.advance m.format.operandCount := rfl

@[simp] theorem setReg_nextPc : (s.setReg r v).nextPc n = s.nextPc n := rfl
@[simp] theorem write_nextPc : (s.write a v).nextPc n = s.nextPc n := rfl
@[simp] theorem setFl_nextPc : (s.setFl v).nextPc n = s.nextPc n := rfl
@[simp] theorem emit_nextPc : (s.emit v).nextPc n = s.nextPc n := rfl

@[simp] theorem raised_cfg (f : FailureKind) : (s.raised f v).cfg = s.cfg := rfl
@[simp] theorem raised_x (f : FailureKind) : (s.raised f v).x = s.x := rfl
@[simp] theorem raised_pc (f : FailureKind) : (s.raised f v).pc = s.pc := rfl
@[simp] theorem raised_fl (f : FailureKind) : (s.raised f v).fl = s.fl := rfl
@[simp] theorem raised_run (f : FailureKind) : (s.raised f v).run = .faulted f s.pc v := rfl
@[simp] theorem raised_out (f : FailureKind) : (s.raised f v).out = s.out := rfl
@[simp] theorem raised_mem (f : FailureKind) : (s.raised f v).mem = s.mem := rfl
@[simp] theorem raised_reg (f : FailureKind) : (s.raised f v).reg r = s.reg r := rfl
@[simp] theorem raised_read (f : FailureKind) : (s.raised f v).read a = s.read a := rfl

/-- A register read after a register write. -/
theorem setReg_reg (q : RegIdx) : (s.setReg r v).reg q = if r = q then v else s.reg q := by
  simp [State.setReg, State.reg, Vector.get_eq_getElem, Vector.getElem_set, Fin.ext_iff]

@[simp] theorem setReg_reg_same : (s.setReg r v).reg r = v := by simp [setReg_reg]

theorem setReg_reg_ne {q : RegIdx} (h : r ≠ q) : (s.setReg r v).reg q = s.reg q := by simp [setReg_reg, h]

/-- Writing back a register's own value changes nothing. -/
theorem setReg_self : s.setReg r (s.reg r) = s := by
  simp [State.setReg, State.reg, Vector.get_eq_getElem]

/-- The stack pointer is register 7. -/
theorem sp_eq : s.sp = s.reg 7 := rfl

/-- A push's cell is one below the stack pointer. -/
theorem pushAddr_eq : s.pushAddr = s.reg 7 - 1 := rfl

/-- A pop's byte is the one at the stack pointer. -/
theorem top_eq : s.top = s.read (s.reg 7) := rfl

@[simp] theorem push_cfg : (s.push v).cfg = s.cfg := rfl
@[simp] theorem push_pc : (s.push v).pc = s.pc := rfl
@[simp] theorem push_fl : (s.push v).fl = s.fl := rfl
@[simp] theorem push_run : (s.push v).run = s.run := rfl
@[simp] theorem push_out : (s.push v).out = s.out := rfl
@[simp] theorem push_mem : (s.push v).mem = s.mem.write s.pushAddr v := rfl
@[simp] theorem push_nextPc : (s.push v).nextPc n = s.nextPc n := rfl

/-- A push moves register 7 to the pushed byte's cell and no other register. -/
theorem push_reg : (s.push v).reg r = if 7 = r then s.pushAddr else s.reg r := setReg_reg s 7 s.pushAddr r

@[simp] theorem dropTop_cfg : s.dropTop.cfg = s.cfg := rfl
@[simp] theorem dropTop_pc : s.dropTop.pc = s.pc := rfl
@[simp] theorem dropTop_fl : s.dropTop.fl = s.fl := rfl
@[simp] theorem dropTop_run : s.dropTop.run = s.run := rfl
@[simp] theorem dropTop_out : s.dropTop.out = s.out := rfl
@[simp] theorem dropTop_mem : s.dropTop.mem = s.mem := rfl
@[simp] theorem dropTop_read : s.dropTop.read a = s.read a := rfl
@[simp] theorem dropTop_nextPc : s.dropTop.nextPc n = s.nextPc n := rfl

/-- A pop moves register 7 up by one and no other register. -/
theorem dropTop_reg : s.dropTop.reg r = if 7 = r then s.reg 7 + 1 else s.reg r := setReg_reg s 7 (s.sp + 1) r

/-- Two states with the same fields are the same state. -/
theorem State.ext_fields {s t : State} (hc : s.cfg = t.cfg) (hx : s.x = t.x) (hp : s.pc = t.pc) (hf : s.fl = t.fl)
    (hr : s.run = t.run) (ho : s.out = t.out) (hm : s.mem = t.mem) : s = t := by
  cases s; cases t; cases hc; cases hx; cases hp; cases hf; cases hr; cases ho; cases hm; rfl

end Sys2Proof.Machine
end

