-- ==== Sys2Proof/Laws/Decode.lean ====
section
/-! SUPPORT. The opcode map: the row a byte selects, and how the map's columns agree under parameters that R7 allows. -/

namespace Sys2Proof

theorem mnemonic_mem_all (m : Mnemonic) : m ∈ Mnemonic.all := by cases m <;> decide

/-- What R7 asks of the parameters, in one place. -/
theorem wf_spec {c : Config} (h : c.wf = true) :
    (Mnemonic.jumpRows.map (Mnemonic.opcode c)).Nodup ∧
    (∀ j ∈ Mnemonic.jumpRows, ∀ m ∈ Mnemonic.sourceRows, j.opcode c ≠ m.opcode c) ∧
    (∀ j ∈ Mnemonic.jumpRows, operandField (j.opcode c) = 1) := by
  simp only [Config.wf, Config.jumpBytesDistinct, Config.jumpBytesNew, Config.jumpBytesOneOperand, Bool.and_eq_true,
    decide_eq_true_eq, List.all_eq_true, bne_iff_ne, beq_iff_eq] at h
  exact ⟨h.1.1, h.1.2, h.2⟩

/-- The row a byte selects has that byte (R73). -/
theorem opcode_of_lookup {c : Config} {op : Byte} {m : Mnemonic} (h : lookup c op = some m) : m.opcode c = op := by
  have := List.find?_some h
  simpa using this

/-- A byte in no row selects nothing (R79). -/
theorem lookup_eq_none {c : Config} {op : Byte} : lookup c op = none ↔ ∀ m : Mnemonic, m.opcode c ≠ op := by
  simp [lookup, List.find?_eq_none, mnemonic_mem_all]

/-- Under parameters R7 allows, no two rows share a byte, so the map is unambiguous. -/
theorem opcode_injective {c : Config} (h : c.wf = true) {m m' : Mnemonic} (e : m.opcode c = m'.opcode c) : m = m' := by
  obtain ⟨h1, h2, -⟩ := wf_spec h
  have hs : (Mnemonic.sourceRows.map (Mnemonic.opcode c)).Nodup :=
    (by decide : (Mnemonic.sourceRows.map (Mnemonic.opcode Config.default)).Nodup)
  have hm : ∀ m : Mnemonic, m ∈ Mnemonic.jumpRows ∨ m ∈ Mnemonic.sourceRows := by intro m; cases m <;> decide
  rcases hm m with a | a <;> rcases hm m' with b | b
  · exact List.inj_on_of_nodup_map h1 a b e
  · exact absurd e (h2 _ a _ b)
  · exact absurd e.symm (h2 _ b _ a)
  · exact List.inj_on_of_nodup_map hs a b e

/-- Under parameters R7 allows, a row's byte selects that row. -/
theorem lookup_opcode {c : Config} (h : c.wf = true) (m : Mnemonic) : lookup c (m.opcode c) = some m := by
  cases hl : lookup c (m.opcode c) with
  | none => exact absurd rfl (lookup_eq_none.mp hl m)
  | some m' => rw [opcode_injective h (opcode_of_lookup hl)]

/-- A row whose byte the source gives has it under any parameters. -/
theorem opcode_of_not_jump (c c' : Config) {m : Mnemonic} (h : m ∉ Mnemonic.jumpRows) : m.opcode c = m.opcode c' := by
  revert h
  cases m <;> first | (intro _; rfl) | (intro h; exact absurd (by decide) h)

/-- Under parameters R7 allows, the operand-count field of a row's byte is the row's operand count (R77). -/
theorem operandField_opcode {c : Config} (h : c.wf = true) (m : Mnemonic) :
    operandField (m.opcode c) = m.format.operandCount := by
  obtain ⟨-, -, h3⟩ := wf_spec h
  by_cases hm : m ∈ Mnemonic.jumpRows
  · rw [h3 m hm]; revert hm; cases m <;> decide
  · rw [opcode_of_not_jump c Config.default hm]; revert hm; cases m <;> decide

/-- Taking the operands of a row from bytes that hold them. -/
theorem takeOperands_operandBytes (i : Instr) (op : Byte) (rest : List Byte) :
    takeOperands i.mnemonic op (i.operandBytes ++ rest) = .ok (i, rest) := by
  cases i <;> rfl

/-- What a successful taking of operands took. -/
theorem takeOperands_ok {m : Mnemonic} {op : Byte} {bs rest : List Byte} {i : Instr}
    (h : takeOperands m op bs = .ok (i, rest)) : i.mnemonic = m ∧ i.operandBytes ++ rest = bs := by
  unfold takeOperands at h
  split at h
  · cases h; cases m <;> first | exact ⟨rfl, rfl⟩ | (rename_i e; cases e)
  · cases h; cases m <;> first | exact ⟨rfl, rfl⟩ | (rename_i e; cases e)
  · cases h; cases m <;> first | exact ⟨rfl, rfl⟩ | (rename_i e; cases e)
  · cases h

/-- Three bytes hold the operands of every row. -/
theorem takeOperands_two (m : Mnemonic) (op a b : Byte) : ∃ i rest, takeOperands m op [a, b] = .ok (i, rest) := by
  cases m <;> exact ⟨_, _, rfl⟩

/-- The decoder after the opcode byte. -/
theorem decode_cons (c : Config) (op : Byte) (rest : List Byte) :
    decode c (op :: rest) =
      match lookup c op with
      | none => .error (.illegalOpcode op)
      | some m => takeOperands m op rest := rfl

/-- What the decoder found when it answers an instruction. -/
theorem decode_ok {c : Config} {bs rest : List Byte} {i : Instr} (h : decode c bs = .ok (i, rest)) :
    ∃ op tail, bs = op :: tail ∧ lookup c op = some i.mnemonic ∧ i.operandBytes ++ rest = tail := by
  cases bs with
  | nil => cases h
  | cons op tail =>
    rw [decode_cons] at h
    split at h
    · cases h
    · rename_i m hm
      obtain ⟨rfl, ht⟩ := takeOperands_ok h
      exact ⟨op, tail, rfl, hm, ht⟩

/-- Why the decoder rejects the core's three bytes: the opcode byte is in no row. -/
theorem decode_three_error {c : Config} {op a b : Byte} {r : Reject} (h : decode c [op, a, b] = .error r) :
    lookup c op = none := by
  rw [decode_cons] at h
  split at h
  · assumption
  · rename_i m _
    obtain ⟨i, rest, e⟩ := takeOperands_two m op a b
    simp [e] at h

end Sys2Proof
end

