-- ==== Sys2Proof/Laws/Assembly.lean ====
section
/-! SUPPORT. Assembly statements: the byte a register operand gives, and everything a statement's instruction can be. -/

namespace Sys2Proof.Machine

/-- A register operand gives its index, and `SP` gives 7; an immediate gives none. -/
theorem regByte_eq_some {p : AsmOperand} {a : Byte} :
    p.regByte = some a ↔ (∃ r, p = .reg r ∧ a = BitVec.ofNat 8 r.val) ∨ (p = .sp ∧ a = 7) := by
  cases p <;> simp [AsmOperand.regByte, spIndex, eq_comm]

/-- A register operand's byte is 0 to 7, so it names a register in either mode. -/
theorem regByte_le {p : AsmOperand} {a : Byte} (h : p.regByte = some a) : a.toNat ≤ 7 := by
  obtain ⟨r, -, rfl⟩ | ⟨-, rfl⟩ := regByte_eq_some.mp h
  · simp; omega
  · decide

/-- A statement writes an instruction in one of four ways, one for each format. -/
theorem asm_instr_eq_some {t : AsmStatement} {i : Instr} :
    t.instr = some i ↔
      (t.mnemonic.format = .f0 ∧ t.operands = [] ∧ i = t.mnemonic.instr 0 0) ∨
      (∃ p a, t.mnemonic.format = .f1r ∧ t.operands = [p] ∧ p.regByte = some a ∧ i = t.mnemonic.instr a 0) ∨
      (∃ p q a b, t.mnemonic.format = .f2r ∧ t.operands = [p, q] ∧ p.regByte = some a ∧ q.regByte = some b ∧
        i = t.mnemonic.instr a b) ∨
      (∃ p a v, t.mnemonic.format = .f2i ∧ t.operands = [p, .imm v] ∧ p.regByte = some a ∧
        i = t.mnemonic.instr a v) := by
  unfold AsmStatement.instr
  constructor
  · intro h
    split at h
    · rename_i hf ho; exact .inl ⟨hf, ho, by simpa using h.symm⟩
    · rename_i p hf ho
      obtain ⟨a, ha, rfl⟩ := Option.map_eq_some_iff.mp h
      exact .inr (.inl ⟨p, a, hf, ho, ha, rfl⟩)
    · rename_i p q hf ho
      obtain ⟨a, ha, h⟩ := Option.bind_eq_some_iff.mp h
      obtain ⟨b, hb, rfl⟩ := Option.map_eq_some_iff.mp h
      exact .inr (.inr (.inl ⟨p, q, a, b, hf, ho, ha, hb, rfl⟩))
    · rename_i p v hf ho
      obtain ⟨a, ha, rfl⟩ := Option.map_eq_some_iff.mp h
      exact .inr (.inr (.inr ⟨p, a, v, hf, ho, ha, rfl⟩))
    · cases h
  · rintro (⟨hf, ho, rfl⟩ | ⟨p, a, hf, ho, ha, rfl⟩ | ⟨p, q, a, b, hf, ho, ha, hb, rfl⟩ | ⟨p, a, v, hf, ho, ha, rfl⟩)
      <;> simp [*]

/-- The instruction a row builds is that row's. -/
@[simp] theorem mnemonic_instr (m : Mnemonic) (a b : Byte) : (m.instr a b).mnemonic = m := by cases m <;> rfl

/-- The operand bytes of the instruction a row builds are as many as its format has. -/
theorem operandBytes_instr (m : Mnemonic) (a b : Byte) :
    (m.instr a b).operandBytes = [a, b].take m.format.operandCount := by cases m <;> rfl

/-- The register bytes of the instruction a row builds are its operand bytes but for an immediate. -/
theorem registerBytes_instr (m : Mnemonic) (a b : Byte) :
    (m.instr a b).registerBytes =
      match m.format with
      | .f0 => []
      | .f1r => [a]
      | .f2r => [a, b]
      | .f2i => [a] := by cases m <;> rfl

end Sys2Proof.Machine
end

