-- ==== Sys2Proof/Laws/Memory.lean ====
section
/-! SUPPORT. Memory: what a read gives after a write, and that every memory operation keeps the canonical form. -/

namespace Sys2Proof.Machine

theorem readCell_insertCell (m : Memory) (a b : Nat) (v : Byte) :
    (m.insertCell a v).readCell b = if a = b then v else m.readCell b := by
  induction m with
  | nil => simp [Memory.insertCell, Memory.readCell]
  | cons c m ih =>
    obtain ⟨k, w⟩ := c
    unfold Memory.insertCell
    split
    · simp [Memory.readCell]
    · split
      · subst a; simp only [Memory.readCell]; split <;> simp_all
      · simp only [Memory.readCell, ih]; split <;> split <;> simp_all

theorem readCell_eraseCell (m : Memory) (a b : Nat) :
    (m.eraseCell a).readCell b = if a = b then Memory.unlisted else m.readCell b := by
  induction m with
  | nil => simp [Memory.eraseCell, Memory.readCell]
  | cons c m ih =>
    obtain ⟨k, w⟩ := c
    unfold Memory.eraseCell
    split
    · subst k; simp only [Memory.readCell, ih]; split <;> simp_all
    · simp only [Memory.readCell, ih]; split <;> split <;> simp_all

/-- Reading after a write: the written byte at the written address, the old byte everywhere else. -/
theorem Memory.read_write (m : Memory) (a b v : Byte) :
    (m.write a v).read b = if a = b then v else m.read b := by
  unfold Memory.write Memory.read
  have e : (a.toNat = b.toNat) = (a = b) := by simp [BitVec.toNat_inj]
  split
  · simp only [readCell_eraseCell, e]; split <;> simp_all
  · simp only [readCell_insertCell, e]

/-- Reading a byte of the state after a write. -/
theorem write_read (s : State) (a b v : Byte) : (s.write a v).read b = if a = b then v else s.read b :=
  Memory.read_write s.mem a b v

/-- Reading a byte after a push. -/
theorem push_read (s : State) (v b : Byte) : (s.push v).read b = if s.pushAddr = b then v else s.read b :=
  Memory.read_write s.mem s.pushAddr b v

theorem wfFrom_mono {lo hi : Nat} {m : Memory} (h : m.wfFrom hi = true) (hl : lo ≤ hi) : m.wfFrom lo = true := by
  cases m with
  | nil => rfl
  | cons c m => obtain ⟨k, v⟩ := c; simp [Memory.wfFrom] at h ⊢; exact ⟨⟨⟨by omega, h.1.1.2⟩, h.1.2⟩, h.2⟩

theorem wfFrom_eraseCell {m : Memory} {lo : Nat} (a : Nat) (h : m.wfFrom lo = true) :
    (m.eraseCell a).wfFrom lo = true := by
  induction m generalizing lo with
  | nil => rfl
  | cons c m ih =>
    obtain ⟨k, v⟩ := c
    simp [Memory.wfFrom] at h
    unfold Memory.eraseCell
    split
    · exact wfFrom_mono (ih h.2) (by omega)
    · simp [Memory.wfFrom]; exact ⟨h.1, ih h.2⟩

theorem wfFrom_insertCell {m : Memory} {lo a : Nat} {v : Byte} (h : m.wfFrom lo = true) (hl : lo ≤ a)
    (ha : a < memSize) (hv : v ≠ Memory.unlisted) : (m.insertCell a v).wfFrom lo = true := by
  induction m generalizing lo with
  | nil => simp [Memory.insertCell, Memory.wfFrom, hl, ha, hv]
  | cons c m ih =>
    obtain ⟨k, w⟩ := c
    simp [Memory.wfFrom] at h
    unfold Memory.insertCell
    split
    · simp [Memory.wfFrom, hl, ha, hv]; exact ⟨⟨⟨by omega, h.1.1.2⟩, h.1.2⟩, h.2⟩
    · split
      · subst a; simp [Memory.wfFrom, hl, ha, hv]; exact h.2
      · simp [Memory.wfFrom]; exact ⟨h.1, ih h.2 (by omega)⟩

/-- A write keeps the canonical form. -/
theorem Memory.wf_write {m : Memory} (h : m.wf = true) (a v : Byte) : (m.write a v).wf = true := by
  unfold Memory.write
  split
  · exact wfFrom_eraseCell _ h
  · exact wfFrom_insertCell h (Nat.zero_le _) a.isLt ‹_›

/-- Loading bytes keeps the canonical form. -/
theorem Memory.wf_loadFrom {m : Memory} (h : m.wf = true) (a : Nat) (vs : List Byte) : (m.loadFrom a vs).wf = true := by
  induction vs generalizing m a with
  | nil => exact h
  | cons v vs ih => exact ih (Memory.wf_write h _ _) _

/-- The memory after reset has the canonical form, whatever the image. -/
theorem bootMemory_wf (image : List Byte) : (bootMemory image).wf = true := Memory.wf_loadFrom rfl 0 image

/-- Reading after loading bytes that end inside the address space. -/
theorem Memory.read_loadFrom (m : Memory) (a : Nat) (vs : List Byte) (h : a + vs.length ≤ 256) (b : Byte) :
    (m.loadFrom a vs).read b =
      if a ≤ b.toNat ∧ b.toNat < a + vs.length then vs.getD (b.toNat - a) 0 else m.read b := by
  induction vs generalizing m a with
  | nil => simp [Memory.loadFrom]
  | cons v vs ih =>
    simp only [List.length_cons] at h ⊢
    rw [Memory.loadFrom, ih _ _ (by omega), Memory.read_write]
    have hb : (BitVec.ofNat 8 a = b) ↔ a = b.toNat := by
      rw [← BitVec.toNat_inj, BitVec.toNat_ofNat, Nat.mod_eq_of_lt (by omega)]
    by_cases h1 : a = b.toNat
    · simp [h1]
    · by_cases h2 : a + 1 ≤ b.toNat ∧ b.toNat < a + 1 + vs.length
      · have e : b.toNat - a = (b.toNat - (a + 1)) + 1 := by omega
        rw [if_pos h2, if_pos (by omega), e, List.getD_cons_succ]
      · rw [if_neg h2, if_neg (by rw [hb]; exact h1), if_neg (by omega)]

end Sys2Proof.Machine
end

