-- ==== Sys2Proof/Laws/Exec.lean ====
section
/-! SUPPORT. What each shared operation under `exec` can do, said once: operand resolution, the ALU's write-back, the
cycle and the step. -/

namespace Sys2Proof.Machine

/-- `reg(b)` answers a register exactly where the byte names it. -/
theorem regIndex_eq_some {c : Config} {b : Byte} {r : RegIdx} :
    regIndex c.regIndexMode b = some r ↔ NamesReg c b r := by
  have e : ((b.extractLsb' 0 3).toFin : Fin (2 ^ 3)).val = b.toNat % 8 := by simp
  unfold regIndex NamesReg RegIndexMode.admits
  cases hm : c.regIndexMode
  · simp [Fin.ext_iff, eq_comm]
  · have := r.isLt
    by_cases hb : b.toNat ≤ 7
    · simp [hb, Fin.ext_iff]; omega
    · simp [hb]; omega

/-- `reg(b)` answers nothing exactly where `REG_INDEX_MODE = fault` and the byte is above 7. -/
theorem regIndex_eq_none {mode : RegIndexMode} {b : Byte} :
    regIndex mode b = none ↔ mode = .fault ∧ 7 < b.toNat := by
  unfold regIndex RegIndexMode.admits
  cases mode <;> simp

/-- A byte names at most one register. -/
theorem NamesReg_unique {c : Config} {b : Byte} {r r' : RegIdx} (h : NamesReg c b r) (h' : NamesReg c b r') : r = r' := by
  rw [← regIndex_eq_some] at h h'
  exact Option.some.inj (h.symm.trans h')

/-- An operand that names a register is resolved to it. -/
theorem withReg_names {m : Mnemonic} {a : Byte} {s : State} {ra : RegIdx} (h : NamesReg s.cfg a ra)
    (go : RegIdx → Host.Outcome State Fault Refusal) : withReg m a s go = go ra := by
  unfold withReg; rw [regIndex_eq_some.mpr h]

/-- An operand that names no register raises. -/
theorem withReg_rejects {m : Mnemonic} {a : Byte} {s : State} (hm : s.cfg.regIndexMode = .fault) (ha : 7 < a.toNat)
    (go : RegIdx → Host.Outcome State Fault Refusal) :
    withReg m a s go = .next (s.raised .decodeFailure (m.opcode s.cfg)) := by
  unfold withReg; rw [regIndex_eq_none.mpr ⟨hm, ha⟩]; rfl

/-- Everything an operand's resolution can do: name a register and go on, or raise `DecodeFailure`. -/
theorem withReg_cases (m : Mnemonic) (a : Byte) (s : State) (go : RegIdx → Host.Outcome State Fault Refusal) :
    (∃ ra, NamesReg s.cfg a ra ∧ withReg m a s go = go ra) ∨
    (s.cfg.regIndexMode = .fault ∧ 7 < a.toNat ∧
      withReg m a s go = .next (s.raised .decodeFailure (m.opcode s.cfg))) := by
  cases h : regIndex s.cfg.regIndexMode a with
  | some ra => exact .inl ⟨ra, regIndex_eq_some.mp h, withReg_names (regIndex_eq_some.mp h) go⟩
  | none =>
    obtain ⟨hm, ha⟩ := regIndex_eq_none.mp h
    exact .inr ⟨hm, ha, withReg_rejects hm ha go⟩

/-- Two operands that name registers are resolved to them. -/
theorem withRegs_names {m : Mnemonic} {a b : Byte} {s : State} {ra rb : RegIdx} (ha : NamesReg s.cfg a ra)
    (hb : NamesReg s.cfg b rb) (go : RegIdx → RegIdx → Host.Outcome State Fault Refusal) :
    withRegs m a b s go = go ra rb := by
  unfold withRegs; rw [withReg_names ha, withReg_names hb]

/-- Everything the resolution of two operands can do. -/
theorem withRegs_cases (m : Mnemonic) (a b : Byte) (s : State)
    (go : RegIdx → RegIdx → Host.Outcome State Fault Refusal) :
    (∃ ra rb, NamesReg s.cfg a ra ∧ NamesReg s.cfg b rb ∧ withRegs m a b s go = go ra rb) ∨
    (s.cfg.regIndexMode = .fault ∧ (7 < a.toNat ∨ 7 < b.toNat) ∧
      withRegs m a b s go = .next (s.raised .decodeFailure (m.opcode s.cfg))) := by
  rcases withReg_cases m a s (fun ra => withReg m b s fun rb => go ra rb) with ⟨ra, ha, e⟩ | ⟨hm, ha, e⟩
  · rcases withReg_cases m b s (fun rb => go ra rb) with ⟨rb, hb, e'⟩ | ⟨hm, hb, e'⟩
    · exact .inl ⟨ra, rb, ha, hb, e.trans e'⟩
    · exact .inr ⟨hm, .inr hb, e.trans e'⟩
  · exact .inr ⟨hm, .inl ha, e⟩

/-- Everything an ALU instruction can do: write its result or the flags and advance, raise for a zero divisor, or raise
for an operand byte that names no register. -/
theorem aluInstr_cases (m : Mnemonic) (op : AluOp) (a b : Byte) (s : State) :
    (∃ ra rb, NamesReg s.cfg a ra ∧ NamesReg s.cfg b rb ∧
      ((∃ v, aluApply op (s.reg ra) (s.reg rb) = .value v ∧
          aluInstr m op a b s = .next ((s.setReg ra v).advancePast m)) ∨
       (∃ fl, aluApply op (s.reg ra) (s.reg rb) = .flags fl ∧
          aluInstr m op a b s = .next ((s.setFl fl).advancePast m)) ∨
       (aluApply op (s.reg ra) (s.reg rb) = .zeroDivisor ∧
          aluInstr m op a b s = .next (s.raised .arithmeticFailure (m.opcode s.cfg))))) ∨
    (s.cfg.regIndexMode = .fault ∧ (7 < a.toNat ∨ 7 < b.toNat) ∧
      aluInstr m op a b s = .next (s.raised .decodeFailure (m.opcode s.cfg))) := by
  rcases withRegs_cases m a b s (fun ra rb => aluWriteBack m ra (aluApply op (s.reg ra) (s.reg rb)) s) with
    ⟨ra, rb, ha, hb, e⟩ | h
  · refine .inl ⟨ra, rb, ha, hb, ?_⟩
    cases hr : aluApply op (s.reg ra) (s.reg rb) with
    | value v => exact .inl ⟨v, rfl, by unfold aluInstr; rw [e, hr]; rfl⟩
    | flags fl => exact .inr (.inl ⟨fl, rfl, by unfold aluInstr; rw [e, hr]; rfl⟩)
    | zeroDivisor => exact .inr (.inr ⟨rfl, by unfold aluInstr; rw [e, hr]; rfl⟩)
  · exact .inr h

/-- Everything a conditional jump can do. -/
theorem jumpIf_cases (m : Mnemonic) (taken : Byte → Bool) (a : Byte) (s : State) :
    (∃ ra, NamesReg s.cfg a ra ∧
      jumpIf m taken a s = .next (if taken s.fl then s.setPc (s.reg ra) else s.advancePast m)) ∨
    (s.cfg.regIndexMode = .fault ∧ 7 < a.toNat ∧
      jumpIf m taken a s = .next (s.raised .decodeFailure (m.opcode s.cfg))) :=
  withReg_cases m a s _

/-- The cycle of a state whose fetched bytes decode. -/
theorem cycle_of_decode {s : State} {i : Instr} {rest : List Byte} (h : decode s.cfg s.fetch = .ok (i, rest)) :
    cycle s = exec i s := by
  unfold cycle; rw [h]

/-- The cycle of a state whose opcode byte is in no row. -/
theorem cycle_of_lookup_none {s : State} (h : lookup s.cfg s.fetchOpcode = none) :
    cycle s = .next (s.raised .decodeFailure s.fetchOpcode) := by
  unfold cycle State.fetch; rw [decode_cons, h]; rfl

/-- Everything a cycle can do: run the instruction its opcode byte selects, or raise `DecodeFailure`. -/
theorem cycle_cases (s : State) :
    (∃ i, lookup s.cfg s.fetchOpcode = some i.mnemonic ∧ i.mnemonic.opcode s.cfg = s.fetchOpcode ∧
      cycle s = exec i s) ∨
    (lookup s.cfg s.fetchOpcode = none ∧ cycle s = .next (s.raised .decodeFailure s.fetchOpcode)) := by
  cases h : decode s.cfg s.fetch with
  | error r =>
    have hn := decode_three_error h
    exact .inr ⟨hn, cycle_of_lookup_none hn⟩
  | ok p =>
    obtain ⟨i, rest⟩ := p
    obtain ⟨op, tail, hb, hl, -⟩ := decode_ok h
    have ho : op = s.fetchOpcode := by simpa [State.fetch] using (List.cons.inj hb).1.symm
    subst ho
    exact .inl ⟨i, hl, opcode_of_lookup hl, cycle_of_decode h⟩

/-- A step of a running core under allowed parameters is its cycle. -/
theorem step_running {s : State} (hc : s.cfg.wf = true) (hr : s.run = .running) : step s = cycle s := by
  unfold step; rw [if_pos hc, hr]

/-- A step that answers a next state ran a cycle. -/
theorem step_next {s t : State} (h : step s = .next t) :
    s.cfg.wf = true ∧ s.run = .running ∧ cycle s = .next t := by
  unfold step at h
  split at h
  · rename_i hc
    split at h
    · exact ⟨hc, ‹_›, h⟩
    · cases h
    · cases h
  · cases h

end Sys2Proof.Machine
end

