-- ==== Sys2Proof/Laws/ExecTo.lean ====
section
/-! SUPPORT. Everything `exec` can do, once for all instructions: a later proof about every instruction is a case split
on `ExecTo`, with no meaning unfolded. -/

namespace Sys2Proof.Machine

/-- What `exec` can do, one constructor for each way an instruction ends: its own effect, or a failure's entry. -/
inductive ExecTo (s : State) : Instr → State → Prop
  | raised (i) (h : s.cfg.regIndexMode = .fault) (h' : i.wf .fault = false) :
      ExecTo s i (s.raised .decodeFailure (i.mnemonic.opcode s.cfg))
  | hlt : ExecTo s .hlt ((s.advance 0).setRun .halted)
  | ldi (a imm ra) : NamesReg s.cfg a ra → ExecTo s (.ldi a imm) ((s.setReg ra imm).advance 2)
  | prn (a ra) : NamesReg s.cfg a ra → ExecTo s (.prn a) ((s.emit (s.reg ra)).advance 1)
  | add (a b ra rb v) :
      NamesReg s.cfg a ra → NamesReg s.cfg b rb → aluApply .add (s.reg ra) (s.reg rb) = .value v →
      ExecTo s (.add a b) ((s.setReg ra v).advance 2)
  | sub (a b ra rb v) :
      NamesReg s.cfg a ra → NamesReg s.cfg b rb → aluApply .sub (s.reg ra) (s.reg rb) = .value v →
      ExecTo s (.sub a b) ((s.setReg ra v).advance 2)
  | mul (a b ra rb v) :
      NamesReg s.cfg a ra → NamesReg s.cfg b rb → aluApply .mul (s.reg ra) (s.reg rb) = .value v →
      ExecTo s (.mul a b) ((s.setReg ra v).advance 2)
  | div (a b ra rb v) :
      NamesReg s.cfg a ra → NamesReg s.cfg b rb → aluApply .div (s.reg ra) (s.reg rb) = .value v →
      s.reg rb ≠ 0 → ExecTo s (.div a b) ((s.setReg ra v).advance 2)
  | mod (a b ra rb v) :
      NamesReg s.cfg a ra → NamesReg s.cfg b rb → aluApply .mod (s.reg ra) (s.reg rb) = .value v →
      s.reg rb ≠ 0 → ExecTo s (.mod a b) ((s.setReg ra v).advance 2)
  | divz (a b ra rb) :
      NamesReg s.cfg a ra → NamesReg s.cfg b rb → s.reg rb = 0 →
      ExecTo s (.div a b) (s.raised .arithmeticFailure 0xA3)
  | modz (a b ra rb) :
      NamesReg s.cfg a ra → NamesReg s.cfg b rb → s.reg rb = 0 →
      ExecTo s (.mod a b) (s.raised .arithmeticFailure 0xA4)
  | cmp (a b ra rb) :
      NamesReg s.cfg a ra → NamesReg s.cfg b rb →
      ExecTo s (.cmp a b) ((s.setFl (compareFlags (s.reg ra) (s.reg rb))).advance 2)
  | push (a ra) : NamesReg s.cfg a ra → ExecTo s (.push a) ((s.push (s.reg ra)).advance 1)
  | pop (a ra) : NamesReg s.cfg a ra → ExecTo s (.pop a) ((s.dropTop.setReg ra s.top).advance 1)
  | jmp (a ra) : NamesReg s.cfg a ra → ExecTo s (.jmp a) (s.setPc (s.reg ra))
  | jeq (a ra) : NamesReg s.cfg a ra → ExecTo s (.jeq a) (if takenJeq s.fl then s.setPc (s.reg ra) else s.advance 1)
  | jne (a ra) : NamesReg s.cfg a ra → ExecTo s (.jne a) (if takenJne s.fl then s.setPc (s.reg ra) else s.advance 1)
  | jgt (a ra) : NamesReg s.cfg a ra → ExecTo s (.jgt a) (if takenJgt s.fl then s.setPc (s.reg ra) else s.advance 1)
  | jlt (a ra) : NamesReg s.cfg a ra → ExecTo s (.jlt a) (if takenJlt s.fl then s.setPc (s.reg ra) else s.advance 1)
  | call (a ra) : NamesReg s.cfg a ra → ExecTo s (.call a) ((s.push (s.nextPc 1)).setPc (s.reg ra))
  | ret : ExecTo s .ret (s.dropTop.setPc s.top)

/-- A register byte above 7 is ill-formed under `fault`. -/
theorem registerBytes_one_reject {a : Byte} (h : 7 < a.toNat) : [a].all RegIndexMode.fault.admits = false := by
  simp [RegIndexMode.admits, h]
/-- Two register bytes, one of them above 7, are ill-formed under `fault`. -/
theorem registerBytes_two_reject {a b : Byte} (h : 7 < a.toNat ∨ 7 < b.toNat) :
    [a, b].all RegIndexMode.fault.admits = false := by
  simp [RegIndexMode.admits]; omega

/-- DIV answers a quotient or finds a zero divisor. -/
theorem aluApply_div_cases (x y : Byte) :
    (y ≠ 0 ∧ ∃ v, aluApply .div x y = .value v) ∨ (y = 0 ∧ aluApply .div x y = .zeroDivisor) := by
  by_cases h : y = 0
  · exact .inr ⟨h, by simp [aluApply, h]⟩
  · exact .inl ⟨h, _, if_neg h⟩

/-- MOD answers a remainder or finds a zero divisor. -/
theorem aluApply_mod_cases (x y : Byte) :
    (y ≠ 0 ∧ ∃ v, aluApply .mod x y = .value v) ∨ (y = 0 ∧ aluApply .mod x y = .zeroDivisor) := by
  by_cases h : y = 0
  · exact .inr ⟨h, by simp [aluApply, h]⟩
  · exact .inl ⟨h, _, if_neg h⟩

/-- Every instruction at every state answers a next state, in one of the ways `ExecTo` lists. -/
theorem exec_next (i : Instr) (s : State) : ∃ t, exec i s = .next t ∧ ExecTo s i t := by
  cases i with
  | hlt => exact ⟨_, rfl, .hlt⟩
  | ret => exact ⟨_, rfl, .ret⟩
  | ldi a imm =>
    rcases withReg_cases .ldi a s (fun ra => .next ((s.setReg ra imm).advancePast .ldi)) with ⟨ra, h, e⟩ | ⟨hm, h, e⟩
    · exact ⟨_, e, .ldi a imm ra h⟩
    · exact ⟨_, e, .raised (.ldi a imm) hm (registerBytes_one_reject h)⟩
  | prn a =>
    rcases withReg_cases .prn a s (fun ra => .next ((s.emit (s.reg ra)).advancePast .prn))
      with ⟨ra, h, e⟩ | ⟨hm, h, e⟩
    · exact ⟨_, e, .prn a ra h⟩
    · exact ⟨_, e, .raised (.prn a) hm (registerBytes_one_reject h)⟩
  | push a =>
    rcases withReg_cases .push a s (fun ra => .next ((s.push (s.reg ra)).advancePast .push))
      with ⟨ra, h, e⟩ | ⟨hm, h, e⟩
    · exact ⟨_, e, .push a ra h⟩
    · exact ⟨_, e, .raised (.push a) hm (registerBytes_one_reject h)⟩
  | pop a =>
    rcases withReg_cases .pop a s (fun ra => .next ((s.dropTop.setReg ra s.top).advancePast .pop))
      with ⟨ra, h, e⟩ | ⟨hm, h, e⟩
    · exact ⟨_, e, .pop a ra h⟩
    · exact ⟨_, e, .raised (.pop a) hm (registerBytes_one_reject h)⟩
  | jmp a =>
    rcases withReg_cases .jmp a s (fun ra => .next (s.setPc (s.reg ra))) with ⟨ra, h, e⟩ | ⟨hm, h, e⟩
    · exact ⟨_, e, .jmp a ra h⟩
    · exact ⟨_, e, .raised (.jmp a) hm (registerBytes_one_reject h)⟩
  | call a =>
    rcases withReg_cases .call a s
        (fun ra => .next ((s.push (s.nextPc Mnemonic.call.format.operandCount)).setPc (s.reg ra)))
      with ⟨ra, h, e⟩ | ⟨hm, h, e⟩
    · exact ⟨_, e, .call a ra h⟩
    · exact ⟨_, e, .raised (.call a) hm (registerBytes_one_reject h)⟩
  | jeq a =>
    rcases jumpIf_cases .jeq takenJeq a s with ⟨ra, h, e⟩ | ⟨hm, h, e⟩
    · exact ⟨_, e, .jeq a ra h⟩
    · exact ⟨_, e, .raised (.jeq a) hm (registerBytes_one_reject h)⟩
  | jne a =>
    rcases jumpIf_cases .jne takenJne a s with ⟨ra, h, e⟩ | ⟨hm, h, e⟩
    · exact ⟨_, e, .jne a ra h⟩
    · exact ⟨_, e, .raised (.jne a) hm (registerBytes_one_reject h)⟩
  | jgt a =>
    rcases jumpIf_cases .jgt takenJgt a s with ⟨ra, h, e⟩ | ⟨hm, h, e⟩
    · exact ⟨_, e, .jgt a ra h⟩
    · exact ⟨_, e, .raised (.jgt a) hm (registerBytes_one_reject h)⟩
  | jlt a =>
    rcases jumpIf_cases .jlt takenJlt a s with ⟨ra, h, e⟩ | ⟨hm, h, e⟩
    · exact ⟨_, e, .jlt a ra h⟩
    · exact ⟨_, e, .raised (.jlt a) hm (registerBytes_one_reject h)⟩
  | add a b =>
    rcases aluInstr_cases .add .add a b s with ⟨ra, rb, ha, hb, ⟨v, hv, e⟩ | ⟨fl, hv, e⟩ | ⟨hv, e⟩⟩ | ⟨hm, h, e⟩
    · exact ⟨_, e, .add a b ra rb v ha hb hv⟩
    · cases hv
    · cases hv
    · exact ⟨_, e, .raised (.add a b) hm (registerBytes_two_reject h)⟩
  | sub a b =>
    rcases aluInstr_cases .sub .sub a b s with ⟨ra, rb, ha, hb, ⟨v, hv, e⟩ | ⟨fl, hv, e⟩ | ⟨hv, e⟩⟩ | ⟨hm, h, e⟩
    · exact ⟨_, e, .sub a b ra rb v ha hb hv⟩
    · cases hv
    · cases hv
    · exact ⟨_, e, .raised (.sub a b) hm (registerBytes_two_reject h)⟩
  | mul a b =>
    rcases aluInstr_cases .mul .mul a b s with ⟨ra, rb, ha, hb, ⟨v, hv, e⟩ | ⟨fl, hv, e⟩ | ⟨hv, e⟩⟩ | ⟨hm, h, e⟩
    · exact ⟨_, e, .mul a b ra rb v ha hb hv⟩
    · cases hv
    · cases hv
    · exact ⟨_, e, .raised (.mul a b) hm (registerBytes_two_reject h)⟩
  | cmp a b =>
    rcases aluInstr_cases .cmp .cmp a b s with ⟨ra, rb, ha, hb, ⟨v, hv, e⟩ | ⟨fl, hv, e⟩ | ⟨hv, e⟩⟩ | ⟨hm, h, e⟩
    · cases hv
    · cases hv; exact ⟨_, e, .cmp a b ra rb ha hb⟩
    · cases hv
    · exact ⟨_, e, .raised (.cmp a b) hm (registerBytes_two_reject h)⟩
  | div a b =>
    rcases aluInstr_cases .div .div a b s with ⟨ra, rb, ha, hb, h⟩ | ⟨hm, h, e⟩
    · rcases aluApply_div_cases (s.reg ra) (s.reg rb) with ⟨hz, v, hv⟩ | ⟨hz, hv⟩
      · rcases h with ⟨v', hv', e⟩ | ⟨fl, hv', e⟩ | ⟨hv', e⟩ <;> rw [hv] at hv' <;> cases hv'
        exact ⟨_, e, .div a b ra rb v ha hb hv hz⟩
      · rcases h with ⟨v', hv', e⟩ | ⟨fl, hv', e⟩ | ⟨hv', e⟩ <;> rw [hv] at hv' <;> cases hv'
        exact ⟨_, e, .divz a b ra rb ha hb hz⟩
    · exact ⟨_, e, .raised (.div a b) hm (registerBytes_two_reject h)⟩
  | mod a b =>
    rcases aluInstr_cases .mod .mod a b s with ⟨ra, rb, ha, hb, h⟩ | ⟨hm, h, e⟩
    · rcases aluApply_mod_cases (s.reg ra) (s.reg rb) with ⟨hz, v, hv⟩ | ⟨hz, hv⟩
      · rcases h with ⟨v', hv', e⟩ | ⟨fl, hv', e⟩ | ⟨hv', e⟩ <;> rw [hv] at hv' <;> cases hv'
        exact ⟨_, e, .mod a b ra rb v ha hb hv hz⟩
      · rcases h with ⟨v', hv', e⟩ | ⟨fl, hv', e⟩ | ⟨hv', e⟩ <;> rw [hv] at hv' <;> cases hv'
        exact ⟨_, e, .modz a b ra rb ha hb hz⟩
    · exact ⟨_, e, .raised (.mod a b) hm (registerBytes_two_reject h)⟩

/-- A next state of `exec` is one of those `ExecTo` lists. -/
theorem execTo_of_exec {i : Instr} {s t : State} (h : exec i s = .next t) : ExecTo s i t := by
  obtain ⟨t', h', hs⟩ := exec_next i s
  rw [h] at h'; cases h'; exact hs

end Sys2Proof.Machine
end

