-- ==== Sys2Proof/Laws/Meanings.lean ====
section
/-! SUPPORT. One equation for each meaning on operand bytes that name registers, and the arithmetic of `u8` and the
advance, so that a proof about one instruction unfolds none of them. -/

namespace Sys2Proof.Machine

variable {s : State} {a b : Byte} {ra rb : RegIdx}

/-! ### Arithmetic -/

/-- `u8` of a sum is the bit-vector sum. -/
theorem u8_add (x : Byte) (n : Nat) : u8 ((x.toNat : Int) + (n : Int)) = x + BitVec.ofNat 8 n := by
  have : ((x.toNat : Int) + (n : Int)) = ((x.toNat + n : Nat) : Int) := by push_cast; rfl
  rw [u8, this, BitVec.ofInt_natCast]
  apply BitVec.eq_of_toNat_eq; simp

/-- `u8` of one less is the bit-vector predecessor. -/
theorem u8_pred (x : Byte) : u8 ((x.toNat : Int) - 1) = x - 1 := by
  apply BitVec.eq_of_toNat_eq
  have := x.isLt
  simp [u8, BitVec.toNat_sub]; omega

theorem nextPc_zero (s : State) : s.nextPc 0 = s.pc + 1 := by simp [State.nextPc]
theorem nextPc_one (s : State) : s.nextPc 1 = s.pc + 2 := by simp [State.nextPc, BitVec.add_assoc]
theorem nextPc_two (s : State) : s.nextPc 2 = s.pc + 3 := by simp [State.nextPc, BitVec.add_assoc]

theorem nextPc_zero_u8 (s : State) : s.nextPc 0 = u8 (s.pc.toNat + 1) := by
  rw [nextPc_zero]; exact (u8_add s.pc 1).symm

theorem nextPc_one_u8 (s : State) : s.nextPc 1 = u8 (s.pc.toNat + 2) := by
  rw [nextPc_one]; exact (u8_add s.pc 2).symm

theorem nextPc_two_u8 (s : State) : s.nextPc 2 = u8 (s.pc.toNat + 3) := by
  rw [nextPc_two]; exact (u8_add s.pc 3).symm

/-! ### Meanings -/

theorem exec_ldi (imm : Byte) (ha : NamesReg s.cfg a ra) : exec (.ldi a imm) s = .next ((s.setReg ra imm).advance 2) :=
  withReg_names ha _

theorem exec_prn (ha : NamesReg s.cfg a ra) : exec (.prn a) s = .next ((s.emit (s.reg ra)).advance 1) :=
  withReg_names ha _

theorem exec_push (ha : NamesReg s.cfg a ra) : exec (.push a) s = .next ((s.push (s.reg ra)).advance 1) :=
  withReg_names ha _

theorem exec_pop (ha : NamesReg s.cfg a ra) : exec (.pop a) s = .next ((s.dropTop.setReg ra s.top).advance 1) :=
  withReg_names ha _

theorem exec_jmp (ha : NamesReg s.cfg a ra) : exec (.jmp a) s = .next (s.setPc (s.reg ra)) :=
  withReg_names ha _

theorem exec_jeq (ha : NamesReg s.cfg a ra) :
    exec (.jeq a) s = .next (if takenJeq s.fl then s.setPc (s.reg ra) else s.advance 1) := withReg_names ha _

theorem exec_jne (ha : NamesReg s.cfg a ra) :
    exec (.jne a) s = .next (if takenJne s.fl then s.setPc (s.reg ra) else s.advance 1) := withReg_names ha _

theorem exec_jgt (ha : NamesReg s.cfg a ra) :
    exec (.jgt a) s = .next (if takenJgt s.fl then s.setPc (s.reg ra) else s.advance 1) := withReg_names ha _

theorem exec_jlt (ha : NamesReg s.cfg a ra) :
    exec (.jlt a) s = .next (if takenJlt s.fl then s.setPc (s.reg ra) else s.advance 1) := withReg_names ha _

theorem exec_call (ha : NamesReg s.cfg a ra) :
    exec (.call a) s = .next ((s.push (s.nextPc 1)).setPc (s.reg ra)) := withReg_names ha _

theorem exec_ret : exec .ret s = .next (s.dropTop.setPc s.top) := rfl

theorem exec_hlt : exec .hlt s = .next ((s.advance 0).setRun .halted) := rfl

/-- An ALU instruction whose operation answers a byte. -/
theorem aluInstr_value {m : Mnemonic} {op : AluOp} {v : Byte} (ha : NamesReg s.cfg a ra) (hb : NamesReg s.cfg b rb)
    (h : aluApply op (s.reg ra) (s.reg rb) = .value v) :
    aluInstr m op a b s = .next ((s.setReg ra v).advancePast m) := by
  unfold aluInstr; rw [withRegs_names ha hb, h]; rfl

/-- An ALU instruction whose operation answers flags. -/
theorem aluInstr_flags {m : Mnemonic} {op : AluOp} {fl : Byte} (ha : NamesReg s.cfg a ra) (hb : NamesReg s.cfg b rb)
    (h : aluApply op (s.reg ra) (s.reg rb) = .flags fl) :
    aluInstr m op a b s = .next ((s.setFl fl).advancePast m) := by
  unfold aluInstr; rw [withRegs_names ha hb, h]; rfl

/-- An ALU instruction whose operation meets a zero divisor. -/
theorem aluInstr_zeroDivisor {m : Mnemonic} {op : AluOp} (ha : NamesReg s.cfg a ra) (hb : NamesReg s.cfg b rb)
    (h : aluApply op (s.reg ra) (s.reg rb) = .zeroDivisor) :
    aluInstr m op a b s = .next (s.raised .arithmeticFailure (m.opcode s.cfg)) := by
  unfold aluInstr; rw [withRegs_names ha hb, h]; rfl

theorem exec_add (ha : NamesReg s.cfg a ra) (hb : NamesReg s.cfg b rb) :
    exec (.add a b) s = .next ((s.setReg ra (u8 ((s.reg ra).toNat + (s.reg rb).toNat))).advance 2) :=
  aluInstr_value ha hb rfl

theorem exec_sub (ha : NamesReg s.cfg a ra) (hb : NamesReg s.cfg b rb) :
    exec (.sub a b) s = .next ((s.setReg ra (u8 ((s.reg ra).toNat - (s.reg rb).toNat))).advance 2) :=
  aluInstr_value ha hb rfl

theorem exec_mul (ha : NamesReg s.cfg a ra) (hb : NamesReg s.cfg b rb) :
    exec (.mul a b) s = .next ((s.setReg ra (u8 ((s.reg ra).toNat * (s.reg rb).toNat))).advance 2) :=
  aluInstr_value ha hb rfl

theorem exec_div (ha : NamesReg s.cfg a ra) (hb : NamesReg s.cfg b rb) (h : s.reg rb ≠ 0) :
    exec (.div a b) s =
      .next ((s.setReg ra (BitVec.ofNat 8 ((s.reg ra).toNat / (s.reg rb).toNat))).advance 2) :=
  aluInstr_value ha hb (if_neg h)

theorem exec_mod (ha : NamesReg s.cfg a ra) (hb : NamesReg s.cfg b rb) (h : s.reg rb ≠ 0) :
    exec (.mod a b) s =
      .next ((s.setReg ra (BitVec.ofNat 8 ((s.reg ra).toNat % (s.reg rb).toNat))).advance 2) :=
  aluInstr_value ha hb (if_neg h)

theorem exec_cmp (ha : NamesReg s.cfg a ra) (hb : NamesReg s.cfg b rb) :
    exec (.cmp a b) s = .next ((s.setFl (compareFlags (s.reg ra) (s.reg rb))).advance 2) :=
  aluInstr_flags ha hb rfl

/-- A running core whose opcode byte is a row's runs that row's instruction with the bytes after it. -/
theorem step_of_opcode (hc : s.cfg.wf = true) (hr : s.run = .running) {m : Mnemonic}
    (h : s.read s.pc = m.opcode s.cfg) : step s = exec (m.instr (s.read (s.pc + 1)) (s.read (s.pc + 2))) s := by
  rw [step_running hc hr]
  have hf : s.fetch = [m.opcode s.cfg, s.read (s.pc + 1), s.read (s.pc + 2)] := by rw [← h]; rfl
  unfold cycle
  rw [hf, decode_cons, lookup_opcode hc]
  cases m <;> rfl

end Sys2Proof.Machine
end

