-- ==== Sys2Proof/Laws/PerInstr.lean ====
section
/-! SUPPORT. Facts about every instruction as syntax, one lemma for each constructor. -/

namespace Sys2Proof.Laws.OperandLayout

/-- An instruction's operand bytes are as many as its row's format says, and its row rebuilds it from them (R71). -/
def Statement (i : Instr) : Prop :=
  i.operandBytes.length = i.mnemonic.format.operandCount ∧
  i.mnemonic.instr (i.operandBytes.getD 0 0) (i.operandBytes.getD 1 0) = i ∧
  i.registerBytes <+: i.operandBytes

theorem hlt : Statement .hlt := ⟨rfl, rfl, List.prefix_rfl⟩
theorem ldi (a imm : Byte) : Statement (.ldi a imm) := ⟨rfl, rfl, [imm], rfl⟩
theorem prn (a : Byte) : Statement (.prn a) := ⟨rfl, rfl, List.prefix_rfl⟩
theorem mul (a b : Byte) : Statement (.mul a b) := ⟨rfl, rfl, List.prefix_rfl⟩
theorem add (a b : Byte) : Statement (.add a b) := ⟨rfl, rfl, List.prefix_rfl⟩
theorem sub (a b : Byte) : Statement (.sub a b) := ⟨rfl, rfl, List.prefix_rfl⟩
theorem div (a b : Byte) : Statement (.div a b) := ⟨rfl, rfl, List.prefix_rfl⟩
theorem mod (a b : Byte) : Statement (.mod a b) := ⟨rfl, rfl, List.prefix_rfl⟩
theorem push (a : Byte) : Statement (.push a) := ⟨rfl, rfl, List.prefix_rfl⟩
theorem pop (a : Byte) : Statement (.pop a) := ⟨rfl, rfl, List.prefix_rfl⟩
theorem cmp (a b : Byte) : Statement (.cmp a b) := ⟨rfl, rfl, List.prefix_rfl⟩
theorem jmp (a : Byte) : Statement (.jmp a) := ⟨rfl, rfl, List.prefix_rfl⟩
theorem call (a : Byte) : Statement (.call a) := ⟨rfl, rfl, List.prefix_rfl⟩
theorem ret : Statement .ret := ⟨rfl, rfl, List.prefix_rfl⟩
theorem jeq (a : Byte) : Statement (.jeq a) := ⟨rfl, rfl, List.prefix_rfl⟩
theorem jne (a : Byte) : Statement (.jne a) := ⟨rfl, rfl, List.prefix_rfl⟩
theorem jgt (a : Byte) : Statement (.jgt a) := ⟨rfl, rfl, List.prefix_rfl⟩
theorem jlt (a : Byte) : Statement (.jlt a) := ⟨rfl, rfl, List.prefix_rfl⟩

end Sys2Proof.Laws.OperandLayout
end

