-- ==== Sys2Proof/Tests/Slice0.lean ====
section
/-! SUPPORT. Tests whose expected results are the spec's own vectors (95_test_vectors.md; V<n> and W<n> in the comments)
or its encodings (30_encoding.md R76), the refusals of the well-formedness checks, and for every obligation with
hypotheses a state and operands that meet them. -/

namespace Sys2Proof.Tests

open Sys2Proof.Machine

/-! ### Small states -/

/-- The reset state with bytes placed at an address, the pc there, and some registers set. -/
def start (pc : Byte) (bytes : List Byte) (regs : List (RegIdx × Byte)) : State :=
  regs.foldl (fun s r => s.setReg r.1 r.2) ((State.reset.placeAt pc bytes).setPc pc)

/-- A state under `REG_INDEX_MODE = fault`. -/
def inFaultMode (s : State) : State := { s with cfg := { s.cfg with regIndexMode := .fault } }

/-- One step answers a next state with a property. -/
def stepsTo (s : State) (p : State → Bool) : Bool :=
  match step s with
  | .next t => p t
  | _ => false

/-- The state an outcome answers, or another state where it answers none. -/
def nextOr (s : State) : Host.Outcome State Fault Refusal → State
  | .next t => t
  | _ => s

/-- A configuration R7 allows with a jump byte that is not the default (V67). -/
def otherConfig : Config := { Config.default with opJeq := 0x59 }

/-- A configuration R7 forbids: JEQ's byte is JMP's. -/
def badConfig : Config := { Config.default with opJeq := 0x54 }

/-! ### Decoding: every row's byte, written out from R76 -/

theorem test_decode_hlt : decode Config.default [0b00000001, 9, 9] = .ok (.hlt, [9, 9]) := by decide
theorem test_decode_ldi : decode Config.default [0b10000010, 0x03, 0x08] = .ok (.ldi 3 8, []) := by decide
theorem test_decode_prn : decode Config.default [0b01000111, 0x05, 9] = .ok (.prn 5, [9]) := by decide
theorem test_decode_mul : decode Config.default [0b10100010, 0x02, 0x01] = .ok (.mul 2 1, []) := by decide
theorem test_decode_add : decode Config.default [0b10100000, 0x02, 0x01] = .ok (.add 2 1, []) := by decide
theorem test_decode_sub : decode Config.default [0b10100001, 0x02, 0x01] = .ok (.sub 2 1, []) := by decide
theorem test_decode_div : decode Config.default [0b10100011, 0x02, 0x01] = .ok (.div 2 1, []) := by decide
theorem test_decode_mod : decode Config.default [0b10100100, 0x02, 0x01] = .ok (.mod 2 1, []) := by decide
theorem test_decode_push : decode Config.default [0b01000101, 0x07, 9] = .ok (.push 7, [9]) := by decide
theorem test_decode_pop : decode Config.default [0b01000110, 0x07, 9] = .ok (.pop 7, [9]) := by decide
theorem test_decode_cmp : decode Config.default [0b10100111, 0x02, 0x01] = .ok (.cmp 2 1, []) := by decide
theorem test_decode_jmp : decode Config.default [0b01010100, 0x03, 9] = .ok (.jmp 3, [9]) := by decide
theorem test_decode_call : decode Config.default [0b01010000, 0x03, 9] = .ok (.call 3, [9]) := by decide
theorem test_decode_ret : decode Config.default [0b00010001, 9, 9] = .ok (.ret, [9, 9]) := by decide
theorem test_decode_jeq : decode Config.default [0b01010101, 0x03, 9] = .ok (.jeq 3, [9]) := by decide
theorem test_decode_jne : decode Config.default [0b01010110, 0x03, 9] = .ok (.jne 3, [9]) := by decide
theorem test_decode_jgt : decode Config.default [0b01010111, 0x03, 9] = .ok (.jgt 3, [9]) := by decide
theorem test_decode_jlt : decode Config.default [0b01011000, 0x03, 9] = .ok (.jlt 3, [9]) := by decide

/-- V62: AND's byte in other LS-8 descriptions. -/
theorem test_decode_rejects_and : decode Config.default [0xA8, 0, 1] = .error (.illegalOpcode 0xA8) := by decide
/-- V65: HLT's identifier with the ALU bit set. -/
theorem test_decode_rejects_whole_byte : decode Config.default [0x21, 0, 0] = .error (.illegalOpcode 0x21) := by decide
theorem test_decode_rejects_short : decode Config.default [0x82, 0] = .error (.truncated 0x82) := by decide
theorem test_decode_rejects_empty : decode Config.default [] = .error .noBytes := by decide
/-- The table's numbering: the second byte is bits 15 to 8. -/
theorem test_decodeTableWord : decodeTableWord 24 0x050382 = some (.ldi 3 5) := by decide
/-- Bits above the row's are zero. -/
theorem test_decodeTableWord_short : decodeTableWord 8 0xFF47 = some (.prn 0) := by decide
theorem test_withFetchWord_runs : stepsTo (State.reset.withFetchWord 24 0x050382) (fun t => t.reg 3 == 5) = true := by
  decide

/-! ### Well-formedness refuses -/

theorem test_wf_default : Config.default.wf = true := by decide
theorem test_wf_other : otherConfig.wf = true := by decide
theorem test_wf_refuses_equal_jump_bytes : ({ Config.default with opJne := 0x55 } : Config).wf = false := by decide
theorem test_wf_refuses_source_byte : badConfig.wf = false := by decide
theorem test_wf_refuses_two_operands : ({ Config.default with opJlt := 0x95 } : Config).wf = false := by decide
theorem test_instr_wf_refuses_byte_8 : (Instr.add 0 8).wf .fault = false := by decide
theorem test_instr_wf_takes_any_immediate : (Instr.ldi 7 0xFF).wf .fault = true := by decide
theorem test_instr_wf_mask_takes_any_byte : (Instr.add 0xFF 8).wf .mask = true := by decide
theorem test_image_wf_refuses_257 : imageWf (List.replicate 257 1) = false := by
  unfold imageWf; rw [List.length_replicate]; rfl
theorem test_memory_wf_refuses_order : Memory.wf [(3, 1), (2, 1)] = false := by decide
theorem test_memory_wf_refuses_repeat : Memory.wf [(3, 1), (3, 2)] = false := by decide
theorem test_memory_wf_refuses_unlisted_value : Memory.wf [(3, 0)] = false := by decide
theorem test_memory_wf_refuses_outside : Memory.wf [(256, 1)] = false := by decide

/-! ### Instructions: the vectors of 95_test_vectors.md -/

/-- V7: under `mask` 0x0A names R2. -/
theorem test_ldi_mask : stepsTo (start 0 [0x82, 0x0A, 5] []) (fun t => t.reg 2 == 5 && t.pc == 3) = true := by decide
/-- V8: under `fault` it fails. -/
theorem test_ldi_fault : stepsTo (inFaultMode (start 0 [0x82, 0x0A, 5] []))
    (fun t => t.run == .faulted .decodeFailure 0 0x82 && t.reg 2 == 0 && t.pc == 0) = true := by decide
/-- V9: the unused operandB is never checked. -/
theorem test_prn_unused_byte : stepsTo (inFaultMode (start 0 [0x47, 1, 0xFF] [(1, 9)]))
    (fun t => t.out == [9] && t.pc == 2) = true := by decide
/-- V9a: operand fetch and advance wrap. -/
theorem test_prn_wraps : stepsTo (start 0xFE [0x47, 3] [(3, 1)]) (fun t => t.out == [1] && t.pc == 0) = true := by decide
/-- V11. -/
theorem test_add_wraps : stepsTo (start 0 [0xA0, 0, 1] [(0, 200), (1, 100)]) (fun t => t.reg 0 == 44) = true := by decide
/-- V37: opcode at 0xFE, second operand at 0x00. -/
theorem test_add_across_the_top : stepsTo (start 0xFE [0xA0, 0, 1] [(0, 1), (1, 2)])
    (fun t => t.reg 0 == 3 && t.pc == 1) = true := by decide
/-- V16. -/
theorem test_sub_wraps : stepsTo (start 0 [0xA1, 0, 1] [(0, 3), (1, 5)]) (fun t => t.reg 0 == 254) = true := by decide
/-- V20. -/
theorem test_mul_wraps : stepsTo (start 0 [0xA2, 0, 1] [(0, 255), (1, 255)]) (fun t => t.reg 0 == 1) = true := by decide
/-- V22. -/
theorem test_div : stepsTo (start 0 [0xA3, 0, 1] [(0, 7), (1, 2)]) (fun t => t.reg 0 == 3 && t.pc == 3) = true := by decide
/-- V26. -/
theorem test_div_by_zero : stepsTo (start 6 [0xA3, 0, 1] [(0, 5)])
    (fun t => t.run == .faulted .arithmeticFailure 6 0xA3 && t.reg 0 == 5 && t.pc == 6) = true := by decide
/-- V29a. -/
theorem test_mod : stepsTo (start 0 [0xA4, 0, 1] [(0, 255), (1, 16)]) (fun t => t.reg 0 == 15) = true := by decide
/-- V29c. -/
theorem test_mod_by_zero : stepsTo (start 0 [0xA4, 0, 1] [(0, 8)])
    (fun t => t.run == .faulted .arithmeticFailure 0 0xA4 && t.reg 0 == 8) = true := by decide
/-- V33: the comparison is unsigned. -/
theorem test_cmp_unsigned : stepsTo (start 0 [0xA7, 0, 1] [(0, 0x80), (1, 1)]) (fun t => t.fl == 2) = true := by decide
/-- V35: the old L is cleared. -/
theorem test_cmp_clears : stepsTo ((start 0 [0xA7, 0, 1] [(0, 1), (1, 1)]).setFl 4) (fun t => t.fl == 1) = true := by decide
/-- V39: the register check comes before the divisor check. -/
theorem test_div_register_check_first : stepsTo (inFaultMode (start 0 [0xA3, 0, 9] [(0, 4)]))
    (fun t => t.run == .faulted .decodeFailure 0 0xA3) = true := by decide
/-- V42: the stack pointer wraps. -/
theorem test_push_wraps : stepsTo (start 0x10 [0x45, 0] [(0, 5), (7, 0)])
    (fun t => t.reg 7 == 0xFF && t.read 0xFF == 5) = true := by decide
/-- V43: PUSH R7 pushes the old stack pointer. -/
theorem test_push_r7 : stepsTo (start 0 [0x45, 7] [])
    (fun t => t.reg 7 == 0xF3 && t.read 0xF3 == 0xF4) = true := by decide
/-- V45. -/
theorem test_pop_wraps : stepsTo ((start 0 [0x46, 2] [(7, 0xFF)]).write 0xFF 9)
    (fun t => t.reg 2 == 9 && t.reg 7 == 0) = true := by decide
/-- V45a: the popped byte is final. -/
theorem test_pop_r7 : stepsTo ((start 0 [0x46, 7] [(7, 0xF3)]).write 0xF3 0x20) (fun t => t.reg 7 == 0x20) = true := by
  decide
/-- V54. -/
theorem test_jmp : stepsTo (start 20 [0x54, 3] [(3, 12)]) (fun t => t.pc == 12) = true := by decide
/-- V51. -/
theorem test_jeq_taken : stepsTo ((start 20 [0x55, 3] [(3, 12)]).setFl 1) (fun t => t.pc == 12) = true := by decide
/-- V50: JEQ before any CMP. -/
theorem test_jeq_not_taken : stepsTo (start 20 [0x55, 3] [(3, 12)]) (fun t => t.pc == 22) = true := by decide
/-- V50: JNE before any CMP. -/
theorem test_jne_taken : stepsTo (start 20 [0x56, 3] [(3, 12)]) (fun t => t.pc == 12) = true := by decide
/-- V51. -/
theorem test_jne_not_taken : stepsTo ((start 20 [0x56, 3] [(3, 12)]).setFl 1) (fun t => t.pc == 22) = true := by decide
/-- V52. -/
theorem test_jgt_taken : stepsTo ((start 20 [0x57, 3] [(3, 12)]).setFl 2) (fun t => t.pc == 12) = true := by decide
/-- V53. -/
theorem test_jgt_not_taken : stepsTo ((start 20 [0x57, 3] [(3, 12)]).setFl 4) (fun t => t.pc == 22) = true := by decide
/-- V53. -/
theorem test_jlt_taken : stepsTo ((start 20 [0x58, 3] [(3, 12)]).setFl 4) (fun t => t.pc == 12) = true := by decide
/-- V56: not taken, and the advance wraps. -/
theorem test_jlt_wraps : stepsTo ((start 0xFE [0x58, 3] [(3, 12)]).setFl 2) (fun t => t.pc == 0) = true := by decide
/-- V59: the return address wraps. -/
theorem test_call_wraps : stepsTo (start 0xFE [0x50, 1] [(1, 0x40)])
    (fun t => t.read 0xF3 == 0 && t.reg 7 == 0xF3 && t.pc == 0x40) = true := by decide
/-- V59a: CALL R7 goes to the old stack pointer. -/
theorem test_call_r7 : stepsTo (start 0 [0x50, 7] [])
    (fun t => t.pc == 0xF4 && t.reg 7 == 0xF3 && t.read 0xF3 == 2) = true := by decide
/-- V59b. -/
theorem test_ret : stepsTo ((start 14 [0x11] [(7, 0xF3)]).write 0xF3 8) (fun t => t.pc == 8 && t.reg 7 == 0xF4) = true := by
  decide
/-- V59f. -/
theorem test_hlt_wraps : stepsTo (start 0xFF [0x01] []) (fun t => t.run == .halted && t.pc == 0) = true := by decide

/-! ### Steps, failures and reset -/

/-- V60. -/
theorem test_zero_byte_fails : stepsTo State.reset (fun t => t.run == .faulted .decodeFailure 0 0) = true := by decide
/-- V67: with JEQ's byte set to 0x59, 0x55 is illegal. -/
theorem test_old_jump_byte_fails : stepsTo { start 0 [0x55, 3] [] with cfg := otherConfig }
    (fun t => t.run == .faulted .decodeFailure 0 0x55) = true := by decide
/-- V66. -/
theorem test_halted_takes_no_step : step (State.reset.setRun .halted) = .fault .halted := by rfl
/-- V80. -/
theorem test_boot_places_the_image :
    ((List.range 7).map fun a => (bootState Config.default [0x82, 0, 8, 0x47, 0, 1]).read (BitVec.ofNat 8 a)) =
      [0x82, 0, 8, 0x47, 0, 1, 0] := by decide
/-- V82. -/
theorem test_reset_refuses_257 : applyReset (List.replicate 257 1) State.reset = .refused .imageTooLong := by
  unfold applyReset; rw [test_image_wf_refuses_257]; rfl
theorem test_memory_reset_wf : State.reset.mem.wf = true := by decide
/-- Writing 0 removes the entry, so equal memories are equal lists. -/
theorem test_write_zero_removes : (Memory.write [(3, 1), (7, 2)] 3 0) = [(7, 2)] := by decide

/-! ### The ALU alone, and the host's view -/

/-- V40, V40a, V40b, V40c. -/
theorem test_alu_bitwise : aluApply .and 0xF0 0x3C = .value 0x30 ∧ aluApply .or 0xF0 0x3C = .value 0xFC ∧
    aluApply .xor 0xF0 0x3C = .value 0xCC ∧ aluApply .not 0x0F 0 = .value 0xF0 := by decide
/-- V40d to V40g. -/
theorem test_alu_shifts : aluApply .shl 0x81 1 = .value 0x02 ∧ aluApply .shl 0x01 8 = .value 0x00 ∧
    aluApply .shr 0x81 1 = .value 0x40 ∧ aluApply .shr 0xFF 9 = .value 0x00 := by decide
/-- V40h, V40i. -/
theorem test_alu_steps : aluApply .inc 0xFF 0 = .value 0x00 ∧ aluApply .dec 0x00 0 = .value 0xFF := by decide
/-- V3, V4. -/
theorem test_render : renderOut [200, 0] = ['2', '0', '0', '\n', '0', '\n'] := by decide
/-- R82 and R84: the one listing the source gives. -/
theorem test_assemble : AsmStatement.assemble Config.default ⟨.ldi, [.reg 0, .imm 8]⟩ = some [0x82, 0x00, 0x08] ∧
    (⟨.ldi, [.reg 0, .imm 8]⟩ : AsmStatement).text = ['L', 'D', 'I', ' ', 'R', '0', ',', '8'] := by decide
theorem test_assemble_refuses_form : AsmStatement.assemble Config.default ⟨.add, [.reg 0, .imm 8]⟩ = none := by decide

/-! ### Witnesses: for each obligation with hypotheses, a state and operands that meet them -/

/-- Byte 0xFF names R7 under `mask`, and byte 7 under `fault`: the ends of the range in either mode. -/
theorem names_mask_top : NamesReg Config.default 0xFF 7 := .inl ⟨rfl, rfl⟩
theorem names_mask_zero : NamesReg Config.default 0 0 := .inl ⟨rfl, rfl⟩
theorem names_mask_one : NamesReg Config.default 9 1 := .inl ⟨rfl, rfl⟩
theorem names_fault_top : NamesReg { Config.default with regIndexMode := .fault } 7 7 := .inr ⟨rfl, rfl⟩

theorem witness_DecodeOfEncode : Config.default.wf = true ∧ otherConfig.wf = true := by decide

theorem witness_EncodeOfDecode : decode Config.default [0x82, 0xFF, 0, 7] = .ok (.ldi 0xFF 0, [7]) := by decide

theorem witness_InstructionLength : Config.default.wf = true ∧ operandField 0xC0 = 3 ∧ operandField 0xFF = 3 ∧
    decode Config.default (0x82 :: [1, 2]) = .ok (.ldi 1 2, []) ∧ decode Config.default (0x01 :: []) = .ok (.hlt, []) := by
  decide

theorem witness_OpcodeByteSelects : Config.default.wf = true ∧ Mnemonic.opcode Config.default .jlt = 0x58 ∧
    (∀ m : Mnemonic, m.opcode Config.default ≠ 0x59) := by
  refine ⟨by decide, by decide, ?_⟩; intro m; cases m <;> decide

theorem witness_DefaultMap : (0xC0 : Byte).toNat = 0xC0 ∧ (0xC0 : Byte).toNat ≤ (0xFF : Byte).toNat := by decide

theorem witness_UnusedBytes : Config.default.wf = true ∧ Mnemonic.push.format = .f1r ∧ Mnemonic.ret.format = .f0 := by
  decide

/-- R82: the operands' bytes in order, SP as register 7, an immediate at its greatest value, and one of each format. -/
theorem witness_Assembled : Config.default.wf = true ∧
    AsmStatement.assemble Config.default ⟨.ret, []⟩ = some [0x11] ∧
    AsmStatement.assemble Config.default ⟨.push, [.sp]⟩ = some [0x45, 0x07] ∧
    AsmStatement.assemble Config.default ⟨.add, [.reg 2, .reg 1]⟩ = some [0xA0, 0x02, 0x01] ∧
    AsmStatement.assemble Config.default ⟨.ldi, [.sp, .imm 255]⟩ = some [0x82, 0x07, 0xFF] := by decide

theorem witness_NamedInstructions : (Instr.add 7 0).wf .fault = true ∧ (Instr.add 7 8).wf .fault = false := by decide

/-- Images of 255 and 256 bytes: the last cell is the second clause's for the one and the first's for the other. -/
theorem witness_ResetValues : (List.replicate 256 (1 : Byte)).length ≤ 256 ∧ (6 : RegIdx).val < 7 ∧
    (255 : Byte).toNat < (List.replicate 256 (1 : Byte)).length ∧
    (List.replicate 255 (1 : Byte)).length ≤ (255 : Byte).toNat := by
  refine ⟨?_, by decide, ?_, ?_⟩ <;> (rw [List.length_replicate]; try decide)

theorem witness_ResetInput : State.reset.cfg.wf = true ∧ (List.replicate 256 (1 : Byte)).length ≤ 256 ∧
    256 < (List.replicate 257 (1 : Byte)).length ∧ badConfig.wf = false ∧
    (State.reset.setRun .halted).cfg = State.reset.cfg := by
  refine ⟨by decide, ?_, ?_, by decide, rfl⟩ <;> (rw [List.length_replicate]; try decide)

theorem witness_EveryStepKeepsTheInvariant : (start 0 [0x45, 0] [(0, 5)]).inv = true ∧
    ∃ t, step (start 0 [0x45, 0] [(0, 5)]) = .next t := ⟨by decide, _, rfl⟩

theorem witness_Reachable_boot : Reachable Config.default [0x01] (bootState Config.default [0x01]) :=
  .boot (by decide) (by decide)

/-- A reachable halted state, and a reachable failed one. -/
theorem witness_Reachable_stopped :
    (∃ s, Reachable Config.default [0x01] s ∧ s.run = .halted) ∧
    (∃ s, Reachable Config.default [] s ∧ s.failed) :=
  ⟨⟨_, .step (.boot (by decide) (by decide)) rfl, rfl⟩, ⟨_, .step (.boot (by decide) (by decide)) rfl, _, _, _, rfl⟩⟩

/-- The last of the three bytes lies past the top of memory. -/
theorem witness_StepRuns : (start 0xFE [0xA0, 0, 1] []).cfg.wf = true ∧ (start 0xFE [0xA0, 0, 1] []).run = .running ∧
    decode (start 0xFE [0xA0, 0, 1] []).cfg [(start 0xFE [0xA0, 0, 1] []).read 0xFE,
      (start 0xFE [0xA0, 0, 1] []).read (0xFE + 1), (start 0xFE [0xA0, 0, 1] []).read (0xFE + 2)] =
      .ok (.add 0 1, []) := by decide

theorem witness_IllegalOpcode : State.reset.cfg.wf = true ∧ State.reset.run = .running ∧
    (∀ m : Mnemonic, m.opcode State.reset.cfg ≠ State.reset.read State.reset.pc) := by
  refine ⟨by decide, rfl, ?_⟩; intro m; cases m <;> decide

theorem witness_Stopped : (State.reset.setRun .halted).cfg.wf = true ∧ (State.reset.setRun .halted).run = .halted ∧
    (State.reset.setRun (.faulted .arithmeticFailure 6 0xA3)).run = .faulted .arithmeticFailure 6 0xA3 := by decide

theorem witness_RunningCoreSteps : State.reset.run = .running ∧ State.reset.cfg.wf = true ∧
    ({ State.reset with cfg := badConfig } : State).run = .running ∧ badConfig.wf = false := by decide

theorem witness_FailingStep : ∃ t, step (start 6 [0xA3, 0, 1] []) = .next t ∧
    t.run = .faulted .arithmeticFailure 6 0xA3 := ⟨_, rfl, rfl⟩

/-- One step that halts, and one that does not. -/
theorem witness_HaltedIsEntered : (∃ t, step (start 0 [0x01] []) = .next t ∧ t.run = .halted) ∧
    (∃ t, step (start 0 [0x11] []) = .next t ∧ t.run ≠ .halted) := ⟨⟨_, rfl, rfl⟩, ⟨_, rfl, by decide⟩⟩

/-- A meaning that raises for a register byte, one that halts, one with a zero divisor, and one of none of these. -/
theorem witness_RunStateChanges :
    (∃ t, exec (.add 0 8) (inFaultMode State.reset) = .next t) ∧
    (Instr.add 0 8).wf (inFaultMode State.reset).cfg.regIndexMode = false ∧
    (∃ t, exec .hlt State.reset = .next t) ∧
    (∃ t, exec (.mod 0 9) State.reset = .next t) ∧ NamesReg State.reset.cfg 9 1 ∧ State.reset.reg 1 = 0 ∧
    (∃ t, exec (.div 0 0xFF) State.reset = .next t) ∧ NamesReg State.reset.cfg 0xFF 7 ∧ State.reset.reg 7 ≠ 0 :=
  ⟨⟨_, rfl⟩, by decide, ⟨_, rfl⟩, ⟨_, rfl⟩, names_mask_one, by decide, ⟨_, rfl⟩, names_mask_top, by decide⟩

theorem witness_NoStepChangesTheParameters : ∃ t, step State.reset = .next t := ⟨_, rfl⟩

theorem witness_RegisterByteAbove7 : (inFaultMode State.reset).cfg.regIndexMode = .fault ∧
    (∃ b ∈ (Instr.div 0 8).registerBytes, 7 < b.toNat) := ⟨rfl, 8, by decide, by decide⟩

theorem witness_ModesAgree : (∀ b ∈ (Instr.add 7 0).registerBytes, b.toNat ≤ 7) ∧
    ∃ t, exec (.add 7 0) { State.reset with cfg := { State.reset.cfg with regIndexMode := .mask } } = .next t :=
  ⟨by decide, _, rfl⟩

/-- PUSH, CALL, POP, RET and an instruction that reaches no memory; for PUSH and CALL, register bytes that do not raise
under `fault` either; for POP and RET, another memory with the same byte at SP. -/
theorem witness_ReachMemory : (∃ t, exec (.push 0) State.reset = .next t) ∧ (∃ t, exec (.pop 0) State.reset = .next t) ∧
    (∃ t, exec .ret State.reset = .next t) ∧ (∃ t, exec (.prn 0) State.reset = .next t) ∧
    (∀ a, Instr.prn 0 ≠ .push a ∧ Instr.prn 0 ≠ .call a) ∧
    Memory.read [(5, 1)] (State.reset.reg 7) = State.reset.read (State.reset.reg 7) ∧
    (∃ t, exec (.push 7) (inFaultMode State.reset) = .next t) ∧ (Instr.push 7).wf .fault = true ∧
    (∃ t, exec (.call 0xFF) State.reset = .next t) ∧ (Instr.call 0xFF).wf State.reset.cfg.regIndexMode = true :=
  ⟨⟨_, rfl⟩, ⟨_, rfl⟩, ⟨_, rfl⟩, ⟨_, rfl⟩, by simp, by decide, ⟨_, rfl⟩, by decide, ⟨_, rfl⟩, by decide⟩

theorem witness_Flags : (∃ t, exec (.cmp 0 9) State.reset = .next t) ∧ NamesReg State.reset.cfg 0 0 ∧
    NamesReg State.reset.cfg 9 1 ∧ (∃ t, exec (.add 0 9) State.reset = .next t) ∧
    (∀ a, Instr.add 0 9 ≠ .jeq a ∧ Instr.add 0 9 ≠ .jne a ∧ Instr.add 0 9 ≠ .jgt a ∧ Instr.add 0 9 ≠ .jlt a) :=
  ⟨⟨_, rfl⟩, names_mask_zero, names_mask_one, ⟨_, rfl⟩, by simp⟩

theorem witness_Output : (∃ t, exec (.prn 0xFF) State.reset = .next t) ∧ NamesReg State.reset.cfg 0xFF 7 ∧
    (∃ t, exec .hlt State.reset = .next t) ∧ (∀ a, Instr.hlt ≠ .prn a) :=
  ⟨⟨_, rfl⟩, names_mask_top, ⟨_, rfl⟩, by simp⟩

theorem witness_RegistersWritten : ∃ t, exec (.push 0) State.reset = .next t ∧ t.reg 7 ≠ State.reset.reg 7 :=
  ⟨_, rfl, by decide⟩

/-- For the statements about one or two named registers: both ends of the range, one register named twice, register 7,
and either mode; with a divisor that is zero and one that is not. -/
theorem witness_NamedOperands : NamesReg State.reset.cfg 0xFF 7 ∧ NamesReg State.reset.cfg 0 0 ∧
    NamesReg State.reset.cfg 9 1 ∧ NamesReg (inFaultMode State.reset).cfg 7 7 ∧
    State.reset.reg 7 ≠ 0 ∧ State.reset.reg 1 = 0 :=
  ⟨names_mask_top, names_mask_zero, names_mask_one, names_fault_top, by decide, by decide⟩

/-- The three clauses of a comparison, on its least and greatest values. -/
theorem witness_Cmp : ((start 0 [] [(0, 255), (1, 255)]).reg 0).toNat = ((start 0 [] [(0, 255), (1, 255)]).reg 1).toNat ∧
    ((start 0 [] [(0, 255), (1, 0)]).reg 1).toNat < ((start 0 [] [(0, 255), (1, 0)]).reg 0).toNat ∧
    ((start 0 [] [(0, 0), (1, 255)]).reg 0).toNat < ((start 0 [] [(0, 0), (1, 255)]).reg 1).toNat := by decide

theorem witness_AluAnswers : (Instr.div 0 9, AluOp.div) ∈ [(Instr.add 0 9, AluOp.add), (.sub 0 9, .sub), (.mul 0 9, .mul),
      (.div 0 9, .div), (.mod 0 9, .mod), (.cmp 0 9, .cmp)] ∧
    aluApply .div (State.reset.reg 7) (State.reset.reg 7) = .value 1 ∧
    aluApply .div (State.reset.reg 0) (State.reset.reg 1) = .zeroDivisor ∧
    aluApply .cmp (State.reset.reg 0) (State.reset.reg 7) = .flags 4 := by decide

/-- LDI R0,9 and PRN R0 across the top of memory. -/
theorem witness_LdiThenPrn : (start 0xFD [0x82, 0, 9, 0x47, 0] []).cfg.wf = true ∧
    (start 0xFD [0x82, 0, 9, 0x47, 0] []).run = .running ∧ NamesReg (start 0xFD [0x82, 0, 9, 0x47, 0] []).cfg 0 0 ∧
    [0, 1, 2, 3, 4].map (fun k => (start 0xFD [0x82, 0, 9, 0x47, 0] []).read (0xFD + k)) = [0x82, 0, 9, 0x47, 0] :=
  ⟨by decide, by decide, names_mask_zero, by decide⟩

theorem witness_Rendered : renderOut [0, 255] = renderOut [0, 255] ∧ renderOut [1, 2] ≠ renderOut [12] := by decide

theorem witness_PushThenPop : NamesReg State.reset.cfg 0 0 ∧ NamesReg State.reset.cfg 9 1 ∧
    (0 : RegIdx) ≠ 7 ∧ (1 : RegIdx) ≠ 7 := ⟨names_mask_zero, names_mask_one, by decide, by decide⟩

/-- P7's PUSH of HLT's byte onto the next instruction, V47's PUSH over its own opcode, a PUSH over its own operand, and
a CALL whose return address lands on the instruction it goes to. -/
theorem witness_PushedBytes :
    (start 6 [0x45, 0] [(0, 1), (7, 9)]).cfg.wf = true ∧ (start 6 [0x45, 0] [(0, 1), (7, 9)]).run = .running ∧
    NamesReg (start 6 [0x45, 0] [(0, 1), (7, 9)]).cfg 0 0 ∧
    (start 6 [0x45, 0] [(0, 1), (7, 9)]).read 6 = 0x45 ∧ (start 6 [0x45, 0] [(0, 1), (7, 9)]).read (6 + 1) = 0 ∧
    (start 6 [0x45, 0] [(0, 1), (7, 9)]).pushAddr = 6 + 2 ∧ (start 6 [0x45, 0] [(0, 1), (7, 9)]).reg 0 = 1 ∧
    (start 0 [0x45, 0] [(0, 0xAA), (7, 1)]).read 0 = 0x45 ∧ (start 0 [0x45, 0] [(0, 0xAA), (7, 1)]).pushAddr = 0 ∧
    (start 0 [0x45, 0] [(0, 0xAA), (7, 2)]).read 0 = 0x45 ∧ (start 0 [0x45, 0] [(0, 0xAA), (7, 2)]).pushAddr = 0 + 1 ∧
    (start 0xFF [0x50, 0] [(0, 9), (7, 10)]).read 0xFF = 0x50 ∧ (start 0xFF [0x50, 0] [(0, 9), (7, 10)]).reg 0 = 9 ∧
    (start 0xFF [0x50, 0] [(0, 9), (7, 10)]).pushAddr = 9 ∧ (0xFF + 2 : Byte) = 0x01 :=
  ⟨by decide, by decide, names_mask_zero, by decide, by decide, by decide, by decide, by decide, by decide, by decide,
    by decide, by decide, by decide, by decide, by decide⟩

/-- Each conditional jump with its condition met and not met. -/
theorem witness_ConditionalJumps : NamesReg (State.reset.setFl 1).cfg 0 0 ∧
    (State.reset.setFl 1).fl.getLsbD 0 = true ∧ (State.reset.setFl 0).fl.getLsbD 0 = false ∧
    (State.reset.setFl 2).fl.getLsbD 1 = true ∧ (State.reset.setFl 4).fl.getLsbD 1 = false ∧
    (State.reset.setFl 4).fl.getLsbD 2 = true ∧ (State.reset.setFl 2).fl.getLsbD 2 = false :=
  ⟨names_mask_zero, by decide, by decide, by decide, by decide, by decide, by decide⟩

theorem witness_RetResumes : ∃ t, NamesReg State.reset.cfg 0 0 ∧ exec (.call 0) State.reset = .next t ∧
    (t.setPc 9).reg 7 = t.reg 7 ∧ (t.setPc 9).read ((t.setPc 9).reg 7) = t.read ((t.setPc 9).reg 7) :=
  ⟨_, names_mask_zero, rfl, rfl, rfl⟩

theorem witness_Branches : ∃ t, NamesReg State.reset.cfg 0 0 ∧ NamesReg State.reset.cfg 9 1 ∧
    NamesReg State.reset.cfg 0xFF 7 ∧ exec (.cmp 0 9) State.reset = .next t ∧ t.reg 7 ≠ t.pc + 2 :=
  ⟨_, names_mask_zero, names_mask_one, names_mask_top, rfl, by decide⟩

/-- V55. -/
theorem witness_JumpToItself : (start 20 [0x54, 3] [(3, 20)]).cfg.wf = true ∧
    (start 20 [0x54, 3] [(3, 20)]).run = .running ∧ NamesReg (start 20 [0x54, 3] [(3, 20)]).cfg 3 3 ∧
    (start 20 [0x54, 3] [(3, 20)]).read 20 = 0x54 ∧ (start 20 [0x54, 3] [(3, 20)]).read (20 + 1) = 3 ∧
    (start 20 [0x54, 3] [(3, 20)]).reg 3 = 20 :=
  ⟨by decide, by decide, .inl ⟨rfl, rfl⟩, by decide, by decide, by decide⟩

end Sys2Proof.Tests
end

section
/-! What each instruction does with memory (R53): it leaves memory alone or writes the one cell below the stack pointer,
and in another memory it does the same to the rest of the state. `MemoryUse` says both at once. -/

namespace Sys2Proof

/-- The instructions that push a byte: PUSH and CALL (R53). -/
def Instr.pushes : Instr → Bool
  | .push _ | .call _ => true
  | _ => false

theorem pushes_iff (i : Instr) : i.pushes = true ↔ ∃ a, i = .push a ∨ i = .call a := by
  cases i <;> simp [Instr.pushes]

end Sys2Proof

namespace Sys2Proof.Machine

/-- The cell of a push in the spec's arithmetic (R53, R160). -/
theorem pushAddr_u8 (s : State) : s.pushAddr = u8 ((s.reg 7).toNat - 1) := by
  rw [pushAddr_eq, u8_pred]

/-- Two operands, one of which names no register, raise. -/
theorem withRegs_rejects {m : Mnemonic} {a b : Byte} {s : State} (hm : s.cfg.regIndexMode = .fault)
    (h : 7 < a.toNat ∨ 7 < b.toNat) (go : RegIdx → RegIdx → Host.Outcome State Fault Refusal) :
    withRegs m a b s go = .next (s.raised .decodeFailure (m.opcode s.cfg)) := by
  rcases withReg_cases m a s (fun ra => withReg m b s fun rb => go ra rb) with ⟨ra, ha, e⟩ | ⟨-, -, e⟩
  · have hb : 7 < b.toNat := h.resolve_left fun h7 => by
      rw [← regIndex_eq_some, regIndex_eq_none.mpr ⟨hm, h7⟩] at ha; cases ha
    exact e.trans (withReg_rejects hm hb _)
  · exact e

/-- An instruction with a register byte that `fault` rejects raises `DecodeFailure` (R106, R201). -/
theorem exec_not_wf {i : Instr} {s : State} (hm : s.cfg.regIndexMode = .fault) (h : i.wf .fault = false) :
    exec i s = .next (s.raised .decodeFailure (i.mnemonic.opcode s.cfg)) := by
  simp only [Instr.wf, List.all_eq_false] at h
  cases i with
  | hlt | ret => simp [Instr.registerBytes] at h
  | ldi a | prn a | push a | pop a | jmp a | jeq a | jne a | jgt a | jlt a | call a =>
    have ha : 7 < a.toNat := by simpa [Instr.registerBytes, RegIndexMode.admits] using h
    exact withReg_rejects hm ha _
  | mul a b | add a b | sub a b | div a b | mod a b | cmp a b =>
    have hab : 7 < a.toNat ∨ 7 < b.toNat := by simpa [Instr.registerBytes, RegIndexMode.admits] using h
    exact withRegs_rejects hm hab _

/-- What an instruction that takes `s` to `t` does with memory, in `s` and in `s` with any other memory. -/
inductive MemoryUse (s : State) (i : Instr) (t : State) : Prop
  /-- It keeps the memory it finds and acts alike in every memory, which for RET and POP must agree with that of `s` at
  the stack pointer. A PUSH or CALL does this only where it raises. -/
  | kept (hmem : t.mem = s.mem) (hpush : i.pushes = true → i.wf s.cfg.regIndexMode = false)
      (hexec : ∀ m : Memory, (i = .ret ∨ (∃ a, i = .pop a) → m.read (s.reg 7) = s.read (s.reg 7)) →
        exec i { s with mem := m } = .next { t with mem := m })
  /-- It writes one byte, the same in every memory, to the cell below the stack pointer. -/
  | pushed (v : Byte) (hpush : i.pushes = true) (hmem : t.mem = s.mem.write s.pushAddr v)
      (hexec : ∀ m : Memory, exec i { s with mem := m } = .next { t with mem := m.write s.pushAddr v })

/-- An instruction other than PUSH and CALL that has one effect in every memory. -/
theorem MemoryUse.unused {s t : State} {i : Instr} (hmem : t.mem = s.mem) (hpush : i.pushes = false)
    (hexec : ∀ m : Memory, exec i { s with mem := m } = .next { t with mem := m }) : MemoryUse s i t :=
  .kept hmem (fun h => absurd h (by simp [hpush])) fun m _ => hexec m

/-- A conditional jump has one effect in every memory, taken or not. -/
theorem MemoryUse.jump {s : State} {i : Instr} {taken : Bool} {v : Byte} (hpush : i.pushes = false)
    (hexec : ∀ m : Memory, exec i { s with mem := m } =
      .next (if taken then State.setPc { s with mem := m } v else State.advance { s with mem := m } 1)) :
    MemoryUse s i (if taken then s.setPc v else s.advance 1) := by
  cases taken
  · exact .unused rfl hpush hexec
  · exact .unused rfl hpush hexec

/-- R53 for every way an instruction ends. -/
theorem memoryUse_of_execTo {s t : State} {i : Instr} (h : ExecTo s i t) : MemoryUse s i t := by
  cases h with
  | raised _ hm hwf => exact .kept rfl (fun _ => hm ▸ hwf) fun _ _ => exec_not_wf hm hwf
  | hlt => exact .unused rfl rfl fun _ => exec_hlt
  | ldi a imm ra ha => exact .unused rfl rfl fun _ => exec_ldi imm ha
  | prn a ra ha => exact .unused rfl rfl fun _ => exec_prn ha
  | add a b ra rb v ha hb hv | sub a b ra rb v ha hb hv | mul a b ra rb v ha hb hv
  | div a b ra rb v ha hb hv | mod a b ra rb v ha hb hv =>
    exact .unused rfl rfl fun _ => aluInstr_value ha hb hv
  | divz a b ra rb ha hb hz | modz a b ra rb ha hb hz =>
    exact .unused rfl rfl fun _ => aluInstr_zeroDivisor ha hb (if_pos hz)
  | cmp a b ra rb ha hb => exact .unused rfl rfl fun _ => exec_cmp ha hb
  | push a ra ha => exact .pushed _ rfl rfl fun _ => exec_push ha
  | call a ra ha => exact .pushed _ rfl rfl fun _ => exec_call ha
  | jmp a ra ha => exact .unused rfl rfl fun _ => exec_jmp ha
  | jeq a ra ha => exact .jump rfl fun _ => exec_jeq ha
  | jne a ra ha => exact .jump rfl fun _ => exec_jne ha
  | jgt a ra ha => exact .jump rfl fun _ => exec_jgt ha
  | jlt a ra ha => exact .jump rfl fun _ => exec_jlt ha
  | pop a ra ha =>
    refine .kept rfl nofun fun m hm => ?_
    have htop : State.top { s with mem := m } = s.top := hm (.inr ⟨a, rfl⟩)
    rw [exec_pop (s := { s with mem := m }) ha, htop]; rfl
  | ret =>
    refine .kept rfl nofun fun m hm => ?_
    have htop : State.top { s with mem := m } = s.top := hm (.inl rfl)
    rw [exec_ret, htop]; rfl

/-- Settles O29: every instruction keeps memory or pushes one byte (`MemoryUse`), and each clause of R53 is read off in
either case. -/
theorem onlyStackInstructionsReachMemory : Obligations.OnlyStackInstructionsReachMemory := by
  refine ⟨fun _ => rfl, fun i s t h => ?_⟩
  cases memoryUse_of_execTo (execTo_of_exec h) with
  | kept hmem hpush hexec =>
    have hsame : SameMemory s t := fun a => congrArg (Memory.read · a) hmem
    refine ⟨fun _ => hsame, ⟨pushAddr_u8 s, fun a _ => hsame a⟩, fun m hm => ⟨_, hexec m hm, rfl, fun hi hwf => ?_⟩⟩
    simp [hpush ((pushes_iff i).mpr hi)] at hwf
  | pushed v hpush hmem hexec =>
    have hread (a : Byte) : t.read a = if s.pushAddr = a then v else s.read a :=
      (congrArg (Memory.read · a) hmem).trans (Memory.read_write s.mem s.pushAddr a v)
    refine ⟨fun hi => ?_, ⟨pushAddr_u8 s, fun a ha => ?_⟩, fun m _ => ⟨_, hexec m, rfl, fun _ _ => ?_⟩⟩
    · obtain ⟨a, ha⟩ := (pushes_iff i).mp hpush
      exact absurd ha (not_or.mpr (hi a))
    · rw [hread, if_neg (Ne.symm ha)]
    · rw [hread, if_pos rfl]
      exact (Memory.read_write m s.pushAddr s.pushAddr v).trans (if_pos rfl)

end Sys2Proof.Machine
end

section
/-! The encoding (30_encoding.md): how long an instruction is (R70), and the source's worked encoding (R84). -/

namespace Sys2Proof

/-- No format has more than two operand bytes (R70). -/
theorem operandCount_le_two (f : Format) : f.operandCount ≤ 2 := by cases f <;> decide

/-- An instruction has as many operand bytes as its row's format (R71). -/
@[simp] theorem length_operandBytes (i : Instr) : i.operandBytes.length = i.mnemonic.format.operandCount := by
  cases i <;> rfl

/-- An encoding is an opcode byte and the format's operand bytes (R70). -/
@[simp] theorem length_encode (c : Config) (i : Instr) : (encode c i).length = 1 + i.mnemonic.format.operandCount := by
  rw [encode, List.length_cons, length_operandBytes, Nat.add_comm]

/-- Under parameters R7 allows, bits 7:6 of a byte that selects a row count the row's operand bytes (R77). -/
theorem operandField_of_lookup {c : Config} (hc : c.wf = true) {op : Byte} {m : Mnemonic} (h : lookup c op = some m) :
    operandField op = m.format.operandCount := by
  rw [← opcode_of_lookup h, operandField_opcode hc]

/-- Under parameters R7 allows, a byte with bits 7:6 = 3 selects no row: no format has three operand bytes. -/
theorem lookup_of_operandField_three {c : Config} (hc : c.wf = true) {op : Byte} (h : operandField op = 3) :
    lookup c op = none := by
  cases hl : lookup c op with
  | none => rfl
  | some m =>
    have hcount := operandField_of_lookup hc hl
    have hle := operandCount_le_two m.format
    omega

/-- A byte that selects no row decodes to nothing, whatever follows it (R79). -/
theorem decode_of_lookup_none {c : Config} {op : Byte} (h : lookup c op = none) (rest : List Byte) :
    decode c (op :: rest) = .error (.illegalOpcode op) := by
  rw [decode_cons, h]

/-- Where an opcode byte selects its own row, an encoding decodes to its instruction and leaves the bytes after it. -/
theorem decode_encode_of_lookup {c : Config} {i : Instr} (h : lookup c (i.mnemonic.opcode c) = some i.mnemonic)
    (rest : List Byte) : decode c (encode c i ++ rest) = .ok (i, rest) := by
  rw [encode, List.cons_append, decode_cons, h]
  exact takeOperands_operandBytes i _ rest

/-- Settles O5: a decoded instruction's operand bytes are the head of what follows its opcode byte, and they are as many
as bits 7:6 of the opcode byte say. -/
theorem instructionLengthIsGivenByOpcodeBits7And6 : Obligations.InstructionLengthIsGivenByOpcodeBits7And6 := by
  intro c op rest hc
  refine ⟨fun h3 => decode_of_lookup_none (lookup_of_operandField_three hc h3) rest, fun i tail hd => ?_⟩
  obtain ⟨op', rest', hbytes, hrow, hrest⟩ := decode_ok hd
  obtain ⟨rfl, rfl⟩ := List.cons.inj hbytes
  have hfield : operandField op = i.operandBytes.length := by
    rw [operandField_of_lookup hc hrow, length_operandBytes]
  rw [← hrest, hfield]
  refine ⟨?_, ?_, List.drop_left.symm, by simp⟩
  · rw [length_operandBytes]
    exact operandCount_le_two _
  · rw [List.length_append]
    exact Nat.le_add_right _ _

end Sys2Proof

namespace Sys2Proof.Machine

/-- What memory holds after reset (R231): the image's bytes from address 0, and 0 after them. -/
theorem bootState_read (c : Config) {image : List Byte} (h : image.length ≤ 256) (a : Byte) :
    (bootState c image).read a = image.getD a.toNat 0 := by
  refine (Memory.read_loadFrom [] 0 image (by omega) a).trans ?_
  split
  case isTrue => rfl
  case isFalse hout =>
    rw [List.getD_eq_default _ _ (by omega)]
    rfl

/-- Settles O1: HLT, LDI and PRN have the same byte under any parameters, so the worked encoding decodes as it was
encoded, and each cell after reset holds the image's byte (`bootState_read`). -/
theorem workedEncodingOfTheSource : Obligations.WorkedEncodingOfTheSource := by
  intro c
  refine ⟨rfl, rfl, rfl, ?_, ?_, ?_, ?_⟩
  · exact decode_encode_of_lookup (i := .ldi 0 8) rfl [0x47, 0x00, 0x01]
  · exact decode_encode_of_lookup (i := .prn 0) rfl [0x01]
  · exact decode_encode_of_lookup (i := .hlt) rfl []
  · rw [List.map_congr_left fun a _ => bootState_read c (by decide) (BitVec.ofNat 8 a)]
    decide

end Sys2Proof.Machine
end

section
/-! The ALU (42_alu.md): which operations answer flags or meet a zero divisor, and how the engine writes an answer back
(R130). -/

namespace Sys2Proof.Machine

/-- Only CMP answers flags. -/
theorem eq_cmp_of_aluApply_flags {op : AluOp} {x y fl : Byte} (h : aluApply op x y = .flags fl) : op = .cmp := by
  cases op with
  | cmp => rfl
  | div | mod => simp only [aluApply] at h; split at h <;> cases h
  | _ => cases h

/-- Only DIV and MOD can meet a zero divisor. -/
theorem eq_div_or_mod_of_aluApply_zeroDivisor {op : AluOp} {x y : Byte} (h : aluApply op x y = .zeroDivisor) :
    op = .div ∨ op = .mod := by
  cases op with
  | div => exact .inl rfl
  | mod => exact .inr rfl
  | _ => cases h

/-- The instructions the engine delegates to the ALU, each with its operation (R104, R130). -/
def aluRows (a b : Byte) : List (Instr × AluOp) :=
  [(.add a b, .add), (.sub a b, .sub), (.mul a b, .mul), (.div a b, .div), (.mod a b, .mod), (.cmp a b, .cmp)]

/-- An ALU instruction has two register operands, and its meaning is its operation's `aluInstr`. -/
theorem format_exec_of_mem_aluRows {a b : Byte} {i : Instr} {op : AluOp} (h : (i, op) ∈ aluRows a b) :
    i.mnemonic.format = .f2r ∧ ∀ s, exec i s = aluInstr i.mnemonic op a b s := by
  simp only [aluRows, List.mem_cons, List.not_mem_nil, or_false, Prod.mk.injEq] at h
  obtain ⟨rfl, rfl⟩ | ⟨rfl, rfl⟩ | ⟨rfl, rfl⟩ | ⟨rfl, rfl⟩ | ⟨rfl, rfl⟩ | ⟨rfl, rfl⟩ := h <;> exact ⟨rfl, fun _ => rfl⟩

/-- The advance past two register operands is by 3 (R110). -/
theorem advancePast_of_f2r {m : Mnemonic} (h : m.format = .f2r) (s : State) : s.advancePast m = s.setPc (s.pc + 3) := by
  rw [advancePast_eq, h, ← nextPc_two]
  rfl

/-- Settles O39: an ALU instruction is the `aluInstr` of its row, which writes back a byte (`aluInstr_value`) or flags
(`aluInstr_flags`) and advances past two operands; only CMP's answer is flags. -/
theorem aluInstructionsWriteBackWhatTheAluAnswers : Obligations.AluInstructionsWriteBackWhatTheAluAnswers := by
  intro s a b ra rb i op ha hb hrow
  obtain ⟨hformat, hexec⟩ := format_exec_of_mem_aluRows hrow
  refine ⟨hformat, ?_, fun v hv => ?_, fun fl hfl => ⟨eq_cmp_of_aluApply_flags hfl, ?_⟩,
    eq_div_or_mod_of_aluApply_zeroDivisor, ?_, fun _ _ => ⟨rfl, rfl, rfl⟩⟩
  · rw [length_encode, hformat]
    rfl
  · rw [hexec, aluInstr_value ha hb hv, advancePast_of_f2r hformat, setReg_pc]
  · rw [hexec, aluInstr_flags ha hb hfl, advancePast_of_f2r hformat, setFl_pc]
  · rintro rfl
    exact ⟨_, rfl⟩

end Sys2Proof.Machine
end

section
/-! RET (R177): its byte under any parameters, and its pop of the pc, which goes through for every state. -/

namespace Sys2Proof.Machine

/-- RET's byte is the source's and stands above the jump rows in the map, so it selects RET under any parameters, those
that R7 forbids included. -/
theorem lookup_ret (c : Config) : lookup c 0x11 = some .ret := rfl

/-- A pop's move of the stack pointer in the spec's arithmetic (R161). -/
theorem dropTop_reg_seven (s : State) : s.dropTop.reg 7 = u8 ((s.reg 7).toNat + 1) :=
  (dropTop_reg s 7).trans (u8_add (s.reg 7) 1).symm

/-- A pop moves no register but the stack pointer. -/
theorem dropTop_sameRegsExcept (s : State) : SameRegsExcept [7] s s.dropTop := by
  intro r hr
  have hne : (7 : RegIdx) ≠ r := Ne.symm (List.ne_of_not_mem_cons hr)
  rw [dropTop_reg, if_neg hne]

/-- Settles O55: RET's meaning is one unconditional pop into the pc (`exec_ret`). -/
theorem retPopsThePc : Obligations.RetPopsThePc := by
  intro s after
  have hdecode : decode s.cfg (0x11 :: after) = .ok (.ret, after) :=
    decode_encode_of_lookup (i := .ret) (lookup_ret s.cfg) after
  refine ⟨rfl, rfl, by decide, hdecode, s.dropTop.setPc s.top, exec_ret, top_eq s, ?_, ?_, ?_, ?_⟩
  · rw [setPc_reg, dropTop_reg_seven]
  · exact dropTop_sameRegsExcept s
  · exact fun _ => rfl
  · exact ⟨rfl, rfl, rfl, rfl⟩

end Sys2Proof.Machine
end

section
/-! Decode and encode are each other's inverse (30_encoding.md), and what the opcode byte alone settles: the row, and
that the bytes a row does not use are passed over. -/

namespace Sys2Proof

/-- Settles O3: under parameters R7 allows, an instruction's opcode byte selects its own row. -/
theorem decodeOfEncodeGivesTheInstructionBack : Obligations.DecodeOfEncodeGivesTheInstructionBack := by
  intro c i rest hc
  exact decode_encode_of_lookup (lookup_opcode hc i.mnemonic) rest

/-- Settles O4: the decoder's row has the opcode byte it read (`opcode_of_lookup`), and its operands are the bytes after
it (`decode_ok`). -/
theorem encodeOfDecodeGivesTheBytesBack : Obligations.EncodeOfDecodeGivesTheBytesBack := by
  intro c bs rest i hd
  obtain ⟨op, tail, rfl, hrow, rfl⟩ := decode_ok hd
  rw [encode, opcode_of_lookup hrow]
  rfl

/-- Settles O6: a row's byte selects that row, no other row shares it, and three bytes hold any row's operands. -/
theorem opcodeByteSelectsItsRowExactly : Obligations.OpcodeByteSelectsItsRowExactly := by
  intro c op a b hc
  constructor
  · rintro m rfl
    obtain ⟨i, rest, hi⟩ := takeOperands_two m (m.opcode c) a b
    have hd : decode c [m.opcode c, a, b] = .ok (i, rest) := by rw [decode_cons, lookup_opcode hc]; exact hi
    obtain ⟨hm, -⟩ := takeOperands_ok hi
    exact ⟨i, rest, hd, hm, fun m' hm' => opcode_injective hc hm'⟩
  · exact fun h => decode_of_lookup_none (lookup_eq_none.mpr h) [a, b]

/-- The encoding of the instruction a row builds: its byte, then as many of the two operand bytes as its format has. -/
theorem encode_instr (c : Config) (m : Mnemonic) (a b : Byte) :
    encode c (m.instr a b) = m.opcode c :: [a, b].take m.format.operandCount := by
  rw [encode, Machine.mnemonic_instr, Machine.operandBytes_instr]

/-- A row's byte followed by its operand bytes decodes to the row's instruction, whatever comes after them. -/
theorem decode_row {c : Config} (hc : c.wf = true) (m : Mnemonic) (a b : Byte) (rest : List Byte) :
    decode c (m.opcode c :: ([a, b].take m.format.operandCount ++ rest)) = .ok (m.instr a b, rest) := by
  rw [← List.cons_append, ← encode_instr]
  exact decodeOfEncodeGivesTheInstructionBack c _ rest hc

/-- Settles O9: a row's operand bytes are the first `operandCount` after its opcode byte (`decode_row`); the others are
left over. -/
theorem unusedOperandBytesDoNotChangeTheInstruction : Obligations.UnusedOperandBytesDoNotChangeTheInstruction := by
  intro c m a b a' b' hc
  constructor
  · intro hf
    have hd (rest : List Byte) : decode c (m.opcode c :: a :: rest) = .ok (m.instr a 0, rest) := by
      simpa [hf, Format.operandCount] using decode_row hc m a 0 rest
    exact ⟨m.instr a 0, hd [b], hd [b']⟩
  · intro hf
    have hd (rest : List Byte) : decode c (m.opcode c :: rest) = .ok (m.instr 0 0, rest) := by
      simpa [hf, Format.operandCount] using decode_row hc m 0 0 rest
    exact ⟨m.instr 0 0, hd [a, b], hd [a', b']⟩

/-- The default parameters are ones R7 allows. -/
theorem wf_default : Config.default.wf = true := by decide

/-- Settles O2: the decoder run on each of the eighteen fixed words. -/
theorem specWordsDecodeToTheirInstructions : Obligations.SpecWordsDecodeToTheirInstructions := by
  unfold Obligations.SpecWordsDecodeToTheirInstructions
  decide

/-- Settles O7: the operand count is `operandField_opcode` at the default parameters; the two descriptive bits are read
off each row's byte. -/
theorem opcodeFieldsAgreeWithTheMap : Obligations.OpcodeFieldsAgreeWithTheMap := by
  intro m
  refine ⟨operandField_opcode wf_default m, ?_, ?_⟩
  · cases m <;> decide
  · cases m <;> decide

/-- A byte that no row of the default map has selects nothing there. -/
theorem lookup_default_eq_none {op : Byte} (h : op ∉ Mnemonic.all.map (Mnemonic.opcode Config.default)) :
    lookup Config.default op = none :=
  lookup_eq_none.mpr fun m hm => h (List.mem_map.mpr ⟨m, mnemonic_mem_all m, hm⟩)

/-- The opcode bytes of the default map, as numbers, are exactly the byte values that select a row. -/
theorem opcodes_perm_legal :
    ((List.range 256).filter fun n => !decide (lookup Config.default (BitVec.ofNat 8 n) = none)).Perm
      (Mnemonic.all.map fun m => (m.opcode Config.default).toNat) := by
  refine (List.perm_ext_iff_of_nodup (List.nodup_range.filter _) (by decide)).mpr fun n => ?_
  simp only [List.mem_filter, List.mem_range, List.mem_map, Bool.not_eq_true', decide_eq_false_iff_not]
  constructor
  · rintro ⟨hn, hl⟩
    obtain ⟨m, hm⟩ := Option.ne_none_iff_exists'.mp hl
    refine ⟨m, mnemonic_mem_all m, ?_⟩
    rw [opcode_of_lookup hm, BitVec.toNat_ofNat, Nat.mod_eq_of_lt hn]
  · rintro ⟨m, -, rfl⟩
    refine ⟨(m.opcode Config.default).isLt, ?_⟩
    rw [BitVec.ofNat_toNat, BitVec.setWidth_eq, lookup_opcode wf_default]
    exact Option.some_ne_none m

/-- Settles O8: the 256 byte values split into the illegal ones and the eighteen opcode bytes; a byte named illegal is
none of the eighteen. -/
theorem defaultMapLeaves238IllegalBytes : Obligations.DefaultMapLeaves238IllegalBytes := by
  refine ⟨?_, lookup_default_eq_none (by decide), fun op hop => lookup_default_eq_none fun hmem => ?_,
    lookup_default_eq_none (by decide), lookup_default_eq_none (by decide), lookup_default_eq_none (by decide)⟩
  · have hsplit := List.length_eq_length_filter_add (l := List.range 256)
      fun n => decide (lookup Config.default (BitVec.ofNat 8 n) = none)
    have hlegal := opcodes_perm_legal.length_eq
    rw [List.length_map] at hlegal
    have hrows : Mnemonic.all.length = 18 := rfl
    rw [List.length_range] at hsplit
    omega
  · have hbelow : ∀ op ∈ Mnemonic.all.map (Mnemonic.opcode Config.default), op.toNat < 0xC0 := by decide
    have := hbelow op hmem
    omega

end Sys2Proof
end

section
/-! What a step can do to the run state, the flags and the parameters, said once for all instructions; the invariant,
and the statements on the step that follow (40_instruction_cycle.md, 60_exceptions.md). -/

namespace Sys2Proof.Machine

/-! ### One instruction -/

/-- An instruction whose divisor is zero: DIV or MOD by a register that holds 0 (R134, R135). -/
def DividesByZero (s : State) (i : Instr) : Prop :=
  ∃ a b rb, (i = .div a b ∨ i = .mod a b) ∧ NamesReg s.cfg b rb ∧ s.reg rb = 0

/-- What an instruction that takes `s` to `t` does to the run state (R27, R200), with the reason for it. -/
inductive RunUse (s : State) (i : Instr) (t : State) : Prop
  /-- It leaves the run state as it is. -/
  | kept (hrun : t.run = s.run) (hi : i ≠ .hlt) (hwf : i.wf s.cfg.regIndexMode = true) (hdiv : ¬ DividesByZero s i)
  /-- HLT (R178). -/
  | halted (hi : i = .hlt) (ht : t = (s.advance 0).setRun .halted)
  /-- A register byte that `fault` rejects (R201). -/
  | undecodable (hwf : i.wf s.cfg.regIndexMode = false)
      (ht : t = s.raised .decodeFailure (i.mnemonic.opcode s.cfg))
  /-- A zero divisor, once both operands name registers (R202, R207). -/
  | zeroDivisor (hwf : i.wf s.cfg.regIndexMode = true) (hdiv : DividesByZero s i)
      (ht : t = s.raised .arithmeticFailure (i.mnemonic.opcode s.cfg))

/-- A byte that names a register is admitted. -/
theorem admits_of_names {c : Config} {b : Byte} {r : RegIdx} (h : NamesReg c b r) : c.regIndexMode.admits b = true := by
  rcases h with ⟨hm, -⟩ | ⟨hm, hr⟩
  · rw [hm]; rfl
  · have := r.isLt
    rw [hm]
    exact decide_eq_true (by omega)

/-- One register operand that names a register is well-formed. -/
theorem all_admits_one {c : Config} {a : Byte} {ra : RegIdx} (ha : NamesReg c a ra) :
    [a].all c.regIndexMode.admits = true := by
  simp [admits_of_names ha]

/-- Two register operands that name registers are well-formed. -/
theorem all_admits_two {c : Config} {a b : Byte} {ra rb : RegIdx} (ha : NamesReg c a ra) (hb : NamesReg c b rb) :
    [a, b].all c.regIndexMode.admits = true := by
  simp [admits_of_names ha, admits_of_names hb]

/-- The divisor of an instruction that divides by zero is the one its second byte names. -/
theorem not_dividesByZero_of_ne {s : State} {i : Instr} {b : Byte} {rb : RegIdx}
    (hi : ∀ a' b', i = .div a' b' ∨ i = .mod a' b' → b' = b) (hb : NamesReg s.cfg b rb) (hz : s.reg rb ≠ 0) :
    ¬ DividesByZero s i := by
  rintro ⟨a', b', rb', h, hb', hz'⟩
  obtain rfl := hi a' b' h
  exact hz (NamesReg_unique hb hb' ▸ hz')

/-- R200 for every way an instruction ends. -/
theorem runUse_of_execTo {s t : State} {i : Instr} (h : ExecTo s i t) : RunUse s i t := by
  cases h with
  | raised _ hm hwf => exact .undecodable (hm ▸ hwf) rfl
  | hlt => exact .halted rfl rfl
  | divz a b ra rb ha hb hz =>
    exact .zeroDivisor (all_admits_two ha hb) ⟨a, b, rb, .inl rfl, hb, hz⟩ rfl
  | modz a b ra rb ha hb hz =>
    exact .zeroDivisor (all_admits_two ha hb) ⟨a, b, rb, .inr rfl, hb, hz⟩ rfl
  | div a b ra rb v ha hb hv hz | mod a b ra rb v ha hb hv hz =>
    exact .kept rfl nofun (all_admits_two ha hb) (not_dividesByZero_of_ne (by simp) hb hz)
  | add a b ra rb v ha hb hv | sub a b ra rb v ha hb hv | mul a b ra rb v ha hb hv | cmp a b ra rb ha hb =>
    exact .kept rfl nofun (all_admits_two ha hb) (by simp [DividesByZero])
  | ldi a imm ra ha | prn a ra ha | push a ra ha | pop a ra ha | jmp a ra ha | call a ra ha =>
    exact .kept rfl nofun (all_admits_one ha) (by simp [DividesByZero])
  | jeq a ra ha | jne a ra ha | jgt a ra ha | jlt a ra ha =>
    exact .kept (by split <;> rfl) nofun (all_admits_one ha) (by simp [DividesByZero])
  | ret => exact .kept rfl nofun rfl (by simp [DividesByZero])

/-- No instruction changes the machine's parameters (R6). -/
theorem cfg_of_execTo {s t : State} {i : Instr} (h : ExecTo s i t) : t.cfg = s.cfg := by
  cases h with
  | jeq | jne | jgt | jlt => split <;> rfl
  | _ => rfl

/-- An instruction leaves the flags or writes those of a comparison (R25). -/
theorem fl_of_execTo {s t : State} {i : Instr} (h : ExecTo s i t) :
    t.fl = s.fl ∨ ∃ x y, t.fl = compareFlags x y := by
  cases h with
  | cmp a b ra rb => exact .inr ⟨s.reg ra, s.reg rb, rfl⟩
  | jeq | jne | jgt | jlt => exact .inl (by split <;> rfl)
  | _ => exact .inl rfl

/-- An instruction keeps the canonical form of memory: it leaves memory alone or writes one byte (`MemoryUse`). -/
theorem mem_wf_of_execTo {s t : State} {i : Instr} (h : ExecTo s i t) (hs : s.mem.wf = true) : t.mem.wf = true := by
  cases memoryUse_of_execTo h with
  | kept hmem => rw [hmem]; exact hs
  | pushed v _ hmem => rw [hmem]; exact Memory.wf_write hs _ _

/-! ### One step -/

/-- Every cycle answers a next state. -/
theorem cycle_next (s : State) : ∃ t, cycle s = .next t := by
  rcases cycle_cases s with ⟨i, -, -, e⟩ | ⟨-, e⟩
  · obtain ⟨t, ht, -⟩ := exec_next i s
    exact ⟨t, e.trans ht⟩
  · exact ⟨_, e⟩

/-- Everything a step can do: run the instruction its opcode byte selects, or raise `DecodeFailure`. -/
theorem step_cases {s t : State} (h : step s = .next t) :
    (∃ i, lookup s.cfg s.fetchOpcode = some i.mnemonic ∧ i.mnemonic.opcode s.cfg = s.fetchOpcode ∧ ExecTo s i t) ∨
    (lookup s.cfg s.fetchOpcode = none ∧ t = s.raised .decodeFailure s.fetchOpcode) := by
  obtain ⟨-, -, hcycle⟩ := step_next h
  rcases cycle_cases s with ⟨i, hrow, hop, e⟩ | ⟨hnone, e⟩
  · exact .inl ⟨i, hrow, hop, execTo_of_exec (e.symm.trans hcycle)⟩
  · rw [e] at hcycle
    cases hcycle
    exact .inr ⟨hnone, rfl⟩

/-- HLT is the first row of the map, so its byte selects it under any parameters. -/
theorem lookup_hlt (c : Config) : lookup c 0x01 = some .hlt := rfl

theorem eq_hlt_of_mnemonic {i : Instr} (h : i.mnemonic = .hlt) : i = .hlt := by
  cases i with
  | hlt => rfl
  | _ => cases h

/-- The byte of an instruction that divides by zero is DIV's or MOD's. -/
theorem opcode_of_dividesByZero {s : State} {i : Instr} (h : DividesByZero s i) :
    i.mnemonic.opcode s.cfg = 0xA3 ∨ i.mnemonic.opcode s.cfg = 0xA4 := by
  obtain ⟨a, b, rb, rfl | rfl, -⟩ := h
  · exact .inl rfl
  · exact .inr rfl

/-- What a step from `s` to `t` leaves the run state at (R27), with the opcode byte that goes with it. -/
inductive StepRun (s t : State) : Prop
  /-- The core goes on. -/
  | running (hop : s.fetchOpcode ≠ 0x01) (hrun : t.run = .running)
  /-- HLT (R178). -/
  | halted (hop : s.fetchOpcode = 0x01) (ht : t = (s.advance 0).setRun .halted)
  /-- A failure: only the run state changes (R203), and only DIV and MOD fail in arithmetic (R202). -/
  | failed (kind : FailureKind) (hop : s.fetchOpcode ≠ 0x01) (ht : t = s.raised kind s.fetchOpcode)
      (harith : kind = .arithmeticFailure → s.fetchOpcode = 0xA3 ∨ s.fetchOpcode = 0xA4)

/-- R27 for every step. -/
theorem stepRun_of_step {s t : State} (h : step s = .next t) : StepRun s t := by
  obtain ⟨-, hrunning, -⟩ := step_next h
  rcases step_cases h with ⟨i, hrow, hop, hexec⟩ | ⟨hnone, ht⟩
  · have hne (hi : i ≠ .hlt) : s.fetchOpcode ≠ 0x01 := fun h1 => by
      rw [h1, lookup_hlt] at hrow
      exact hi (eq_hlt_of_mnemonic (Option.some.inj hrow).symm)
    cases runUse_of_execTo hexec with
    | kept hrun hi => exact .running (hne hi) (hrun.trans hrunning)
    | halted hi ht => exact .halted (by rw [← hop, hi]; rfl) ht
    | undecodable hwf ht =>
      exact .failed .decodeFailure (hne (by rintro rfl; cases hwf)) (hop ▸ ht) nofun
    | zeroDivisor _ hdiv ht =>
      have hop' := hop ▸ opcode_of_dividesByZero hdiv
      exact .failed .arithmeticFailure (by rcases hop' with e | e <;> rw [e] <;> decide) (hop ▸ ht) fun _ => hop'
  · refine .failed .decodeFailure (fun h1 => ?_) ht nofun
    rw [h1, lookup_hlt] at hnone
    cases hnone

/-- Settles O26: neither an instruction nor a failure's entry writes the parameters. -/
theorem noStepChangesTheParameters : Obligations.NoStepChangesTheParameters := by
  intro s t h
  rcases step_cases h with ⟨i, -, -, hexec⟩ | ⟨-, rfl⟩
  · exact cfg_of_execTo hexec
  · rfl

/-! ### The flags of a comparison -/

/-- The flags of a comparison of equal bytes (R136). -/
theorem compareFlags_of_eq {x y : Byte} (h : x.toNat = y.toNat) : compareFlags x y = 0x01 :=
  if_pos (BitVec.eq_of_toNat_eq h)

/-- The flags of a comparison whose first byte is greater (R136). -/
theorem compareFlags_of_gt {x y : Byte} (h : y.toNat < x.toNat) : compareFlags x y = 0x02 := by
  have hne : x ≠ y := fun e => by subst e; exact lt_irrefl _ h
  rw [compareFlags, if_neg hne, if_pos h]

/-- The flags of a comparison whose first byte is less (R136). -/
theorem compareFlags_of_lt {x y : Byte} (h : x.toNat < y.toNat) : compareFlags x y = 0x04 := by
  have hne : x ≠ y := fun e => by subst e; exact lt_irrefl _ h
  rw [compareFlags, if_neg hne, if_neg (Nat.lt_asymm h)]

/-- The three ways a comparison comes out, each with its flags. -/
theorem compareFlags_cases (x y : Byte) :
    (x.toNat = y.toNat ∧ compareFlags x y = 0x01) ∨ (y.toNat < x.toNat ∧ compareFlags x y = 0x02) ∨
      (x.toNat < y.toNat ∧ compareFlags x y = 0x04) := by
  rcases lt_trichotomy x.toNat y.toNat with h | h | h
  · exact .inr (.inr ⟨h, compareFlags_of_lt h⟩)
  · exact .inl ⟨h, compareFlags_of_eq h⟩
  · exact .inr (.inl ⟨h, compareFlags_of_gt h⟩)

/-- The three bits of a comparison's flags say that the operands are equal, the first greater, the first less (R25,
R136). -/
theorem flags_compareFlags (x y : Byte) :
    (flagE (compareFlags x y) = true ↔ x.toNat = y.toNat) ∧
      (flagG (compareFlags x y) = true ↔ y.toNat < x.toNat) ∧
      (flagL (compareFlags x y) = true ↔ x.toNat < y.toNat) := by
  rcases compareFlags_cases x y with ⟨h, e⟩ | ⟨h, e⟩ | ⟨h, e⟩ <;> rw [e]
  · exact ⟨iff_of_true rfl h, iff_of_false (by decide) (by omega), iff_of_false (by decide) (by omega)⟩
  · exact ⟨iff_of_false (by decide) (by omega), iff_of_true rfl h, iff_of_false (by decide) (by omega)⟩
  · exact ⟨iff_of_false (by decide) (by omega), iff_of_false (by decide) (by omega), iff_of_true rfl h⟩

/-! ### The invariant -/

theorem inv_iff (s : State) :
    s.inv = true ↔ s.cfg.wf = true ∧ s.mem.wf = true ∧ flLegal s.fl = true ∧ stopRecordLegal s = true := by
  simp only [State.inv, Bool.and_eq_true, and_assoc]

/-- The flags of a comparison are legal (R26). -/
theorem flLegal_compareFlags (x y : Byte) : flLegal (compareFlags x y) = true := by
  rcases compareFlags_cases x y with ⟨-, e⟩ | ⟨-, e⟩ | ⟨-, e⟩ <;> rw [e] <;> rfl

/-- The record of a stop that a step enters is true of the state it stops in (R178, R201 to R203). -/
theorem stopRecordLegal_of_stepRun {s t : State} (h : StepRun s t) : stopRecordLegal t = true := by
  cases h with
  | running _ hrun => simp [stopRecordLegal, hrun]
  | halted hop ht =>
    subst ht
    have hback : s.nextPc 0 - 1 = s.pc := by rw [nextPc_zero, BitVec.add_sub_cancel]
    have hread : s.read (s.nextPc 0 - 1) = 0x01 := by rw [hback]; exact hop
    exact beq_iff_eq.mpr hread
  | failed kind _ ht harith =>
    subst ht
    cases kind with
    | decodeFailure => simp [stopRecordLegal, State.fetchOpcode]
    | arithmeticFailure => simpa [stopRecordLegal, State.fetchOpcode] using harith rfl

/-- Settles O17: the parameters stay, memory and the flags are kept or written in their legal form, and the stop's
record is `stopRecordLegal_of_stepRun`. -/
theorem everyStepKeepsTheInvariant : Obligations.EveryStepKeepsTheInvariant := by
  intro s t hinv h
  obtain ⟨hcfg, hmem, hfl, -⟩ := (inv_iff s).mp hinv
  have hstop := stopRecordLegal_of_stepRun (stepRun_of_step h)
  have hcfg' : t.cfg.wf = true := by rwa [noStepChangesTheParameters s t h]
  rcases step_cases h with ⟨i, -, -, hexec⟩ | ⟨-, rfl⟩
  · refine (inv_iff t).mpr ⟨hcfg', mem_wf_of_execTo hexec hmem, ?_, hstop⟩
    rcases fl_of_execTo hexec with e | ⟨x, y, e⟩
    · rwa [e]
    · rw [e]
      exact flLegal_compareFlags x y
  · exact (inv_iff _).mpr ⟨hcfg', hmem, hfl, hstop⟩

end Sys2Proof.Machine
end

section
/-! The step and the runs it makes (R100, R113, R205): when a step is enabled, how it stops, and what every reachable
state is like. -/

namespace Sys2Proof.Machine

/-! ### A running core's step -/

/-- Settles O19: the step is the cycle (`step_running`), and the cycle runs what its bytes decode to. -/
theorem stepRunsTheDecodedInstruction : Obligations.StepRunsTheDecodedInstruction := by
  intro s i rest hc hr hd
  rw [step_running hc hr]
  exact cycle_of_decode hd

/-- Settles O20: a byte in no row selects nothing (`lookup_eq_none`), and the cycle then raises. -/
theorem illegalOpcodeRaisesDecodeFailure : Obligations.IllegalOpcodeRaisesDecodeFailure := by
  intro s hc hr hop
  rw [step_running hc hr]
  exact cycle_of_lookup_none (lookup_eq_none.mpr hop)

/-- A step in `Halted` (R100). -/
theorem step_halted {s : State} (hc : s.cfg.wf = true) (hr : s.run = .halted) : step s = .fault .halted := by
  unfold step
  rw [if_pos hc, hr]

/-- A step in `Faulted` (R100, R208). -/
theorem step_faulted {s : State} {kind : FailureKind} {fpc fop : Byte} (hc : s.cfg.wf = true)
    (hr : s.run = .faulted kind fpc fop) : step s = .fault (.failed kind fpc fop) := by
  unfold step
  rw [if_pos hc, hr]

/-- A step under parameters R7 forbids. -/
theorem step_of_not_wf {s : State} (hc : ¬ s.cfg.wf = true) : step s = .refused .invalidConfiguration := by
  unfold step
  rw [if_neg hc]

/-- Settles O21: `step_halted` and `step_faulted`. -/
theorem stoppedCoreTakesNoStep : Obligations.StoppedCoreTakesNoStep := by
  intro s hc
  exact ⟨step_halted hc, fun _ _ _ => step_faulted hc⟩

/-- The operand-count field in numbers. -/
theorem operandField_eq (op : Byte) : operandField op = op.toNat / 64 := by
  have := op.isLt
  rw [operandField, BitVec.extractLsb'_toNat, Nat.shiftRight_eq_div_pow]
  omega

/-- R7 over the lists of the jump bytes and of the bytes the source gives. -/
theorem config_wf_iff (c : Config) :
    c.wf = true ↔ (Mnemonic.jumpRows.map (Mnemonic.opcode c)).Nodup ∧
      ∀ j ∈ Mnemonic.jumpRows.map (Mnemonic.opcode c),
        j ∉ Mnemonic.sourceRows.map (Mnemonic.opcode c) ∧ j.toNat / 64 = 1 := by
  rw [List.forall_mem_map]
  simp only [Config.wf, Config.jumpBytesDistinct, Config.jumpBytesNew, Config.jumpBytesOneOperand, Bool.and_eq_true,
    decide_eq_true_eq, List.all_eq_true, bne_iff_ne, beq_iff_eq, operandField_eq, and_assoc, List.mem_map, not_exists,
    not_and, forall_and, ne_comm]

/-- Settles O22: the spelled-out condition is `Config.wf` (`config_wf_iff`, its two lists written out), and under it the
step is a cycle, which always answers a next state. -/
theorem runningCoreStepsUnlessParametersAreForbidden :
    Obligations.RunningCoreStepsUnlessParametersAreForbidden := by
  intro s hr
  constructor
  · intro h
    rw [step_running ((config_wf_iff s.cfg).mpr h) hr]
    exact cycle_next s
  · exact fun h => step_of_not_wf (mt (config_wf_iff s.cfg).mp h)

/-! ### What a step does to the run state -/

/-- Settles O23: the only step into `Faulted` is a failure's entry (`StepRun`). -/
theorem failingStepChangesOnlyTheRunState : Obligations.FailingStepChangesOnlyTheRunState := by
  intro s t kind fpc fop h hfault
  cases stepRun_of_step h with
  | running _ hrun => rw [hrun] at hfault; cases hfault
  | halted _ ht => subst ht; cases hfault
  | failed kind' _ ht =>
    subst ht
    cases hfault
    exact ⟨rfl, rfl, rfl⟩

/-- Settles O24: of the three ways a step ends (`StepRun`), HLT's is the only one that halts and the only one with HLT's
byte. -/
theorem haltedIsEnteredOnlyByHlt : Obligations.HaltedIsEnteredOnlyByHlt := by
  intro s t h
  cases stepRun_of_step h with
  | running hop hrun => exact iff_of_false (by rw [hrun]; exact nofun) hop
  | halted hop ht => exact iff_of_true (by rw [ht]; rfl) hop
  | failed kind hop ht => exact iff_of_false (by rw [ht]; exact nofun) hop

/-- Settles O25: each way an instruction ends (`RunUse`) carries the condition it ends in, and the conditions exclude
each other. -/
theorem runStateChangesOnlyByHltAndFailures : Obligations.RunStateChangesOnlyByHltAndFailures := by
  intro i s t h
  have hzero {a b : Byte} {rb : RegIdx} (hi : i = .div a b ∨ i = .mod a b) (hb : NamesReg s.cfg b rb)
      (hz : s.reg rb = 0) : DividesByZero s i := ⟨a, b, rb, hi, hb, hz⟩
  cases runUse_of_execTo (execTo_of_exec h) with
  | kept hrun hi hwf hdiv =>
    refine ⟨fun hn => absurd (hwf.symm.trans hn) nofun, fun _ => ⟨fun e => absurd e hi, ?_, fun _ _ => hrun⟩⟩
    exact fun a b rb hdm hb hz => absurd (hzero hdm hb hz) hdiv
  | halted hi ht =>
    subst hi ht
    exact ⟨nofun, fun _ => ⟨fun _ => rfl, nofun, fun hne => absurd rfl hne⟩⟩
  | undecodable hwf ht =>
    subst ht
    exact ⟨fun _ => rfl, fun hw => absurd (hwf.symm.trans hw) nofun⟩
  | zeroDivisor hwf hdiv ht =>
    subst ht
    refine ⟨fun hn => absurd (hwf.symm.trans hn) nofun, fun _ => ⟨?_, fun _ _ _ _ _ _ => rfl, fun _ hnz => ?_⟩⟩
    · rintro rfl
      obtain ⟨_, _, _, ⟨⟨⟩⟩ | ⟨⟨⟩⟩, -⟩ := hdiv
    · obtain ⟨a, b, rb, hdm, hb, hz⟩ := hdiv
      exact absurd hz (hnz a b rb hdm hb)

/-- Settles O27: a register byte above 7 makes the instruction ill-formed under `fault`, and such an instruction raises
(`exec_not_wf`). -/
theorem registerByteAbove7FailsInFaultMode : Obligations.RegisterByteAbove7FailsInFaultMode := by
  rintro i s hm ⟨b, hb, h7⟩
  refine exec_not_wf hm (List.all_eq_false.mpr ⟨b, hb, ?_⟩)
  simpa [RegIndexMode.admits] using h7

/-! ### Reset -/

/-- The eight registers after reset (R32). -/
theorem resetRegs_get (r : RegIdx) : resetRegs.get r = if r = 7 then 0xF4 else 0 := by
  revert r
  decide

/-- Settles O12: memory is `bootState_read`, the registers are `resetRegs_get`, and the other fields are `bootState`'s
literals. -/
theorem resetGivesEveryStateItsResetValue : Obligations.ResetGivesEveryStateItsResetValue := by
  intro c image hlen
  refine ⟨fun r hr => ?_, rfl, rfl, rfl, rfl, rfl, fun a h => ?_, fun a h => ?_⟩
  · exact (resetRegs_get r).trans (if_neg (by rintro rfl; exact absurd hr (by decide)))
  · rw [bootState_read c hlen, List.getD_eq_getElem _ _ h]
  · rw [bootState_read c hlen, List.getD_eq_default _ _ h]

/-- Reset with a valid image under allowed parameters (R230). -/
theorem applyReset_next {image : List Byte} {s : State} (hc : s.cfg.wf = true) (hlen : image.length ≤ 256) :
    applyReset image s = .next (bootState s.cfg image) := by
  simp [applyReset, hc, imageWf, maxImage, hlen]

/-- Settles O13: the three ways `applyReset` answers; the state it builds reads the parameters alone. -/
theorem resetInputBuildsTheStateAfresh : Obligations.ResetInputBuildsTheStateAfresh := by
  intro image s
  refine ⟨fun hc hlen => ⟨applyReset_next hc hlen, rfl, fun u hu => ?_, ?_⟩, fun hc hlen => ?_, fun hc => ?_⟩
  · rw [applyReset_next (hu ▸ hc) hlen, hu]
  · rintro hdefault rfl
    rw [hdefault]
    rfl
  · have hlong : ¬ image.length ≤ 256 := by omega
    simp [applyReset, hc, imageWf, maxImage, hlong]
  · simp [applyReset, hc]

/-- The byte 0 is no row's: a jump's byte has bits 7:6 = 01, and the source gives none that is 0 (R79). -/
theorem lookup_zero {c : Config} (hc : c.wf = true) : lookup c 0x00 = none := by
  refine lookup_eq_none.mpr fun m hm => ?_
  by_cases hj : m ∈ Mnemonic.jumpRows
  · obtain ⟨-, -, hone⟩ := wf_spec hc
    exact absurd (hm ▸ hone m hj) (by decide)
  · rw [opcode_of_not_jump c Config.default hj] at hm
    revert hm
    cases m <;> decide

/-- Settles O14: an empty memory reads 0, which selects no row (`lookup_zero`). -/
theorem emptyImageFailsAtAddressZero : Obligations.EmptyImageFailsAtAddressZero := by
  intro c hc
  rw [step_running hc rfl]
  exact cycle_of_lookup_none (lookup_zero hc)

/-- Settles O16: memory is canonical whatever the image (`bootMemory_wf`), the flags are 0, and the core has not
stopped. -/
theorem everyBootStateMeetsTheInvariant : Obligations.EveryBootStateMeetsTheInvariant := by
  intro c image hc
  exact (inv_iff _).mpr ⟨hc, bootMemory_wf image, rfl, rfl⟩

/-- Settles O15: the reset state is the boot state of the empty image under the default parameters. -/
theorem resetStateMeetsTheInvariant : Obligations.ResetStateMeetsTheInvariant :=
  everyBootStateMeetsTheInvariant Config.default [] wf_default

/-! ### Runs -/

/-- Every reachable state meets the invariant. -/
theorem inv_of_reachable {c : Config} {image : List Byte} {s : State} (h : Reachable c image s) : s.inv = true := by
  induction h with
  | boot hc _ => exact everyBootStateMeetsTheInvariant c image hc
  | step _ ht ih => exact everyStepKeepsTheInvariant _ _ ih ht

/-- A run keeps the parameters it began with. -/
theorem cfg_of_reachable {c : Config} {image : List Byte} {s : State} (h : Reachable c image s) : s.cfg = c := by
  induction h with
  | boot => rfl
  | step _ ht ih => exact (noStepChangesTheParameters _ _ ht).trans ih

/-- Settles O18: what the invariant, which every reachable state meets, says of the flags, memory and the stop. -/
theorem everyReachableStateIsLegal : Obligations.EveryReachableStateIsLegal := by
  intro c image s h
  obtain ⟨-, hmem, hfl, hstop⟩ := (inv_iff s).mp (inv_of_reachable h)
  refine ⟨?_, hmem, cfg_of_reachable h, fun hr => ?_, fun kind fpc fop hr => ?_⟩
  · simpa [flLegal, or_assoc] using hfl
  · simpa [stopRecordLegal, hr] using hstop
  · cases kind with
    | decodeFailure =>
      obtain ⟨hpc, hop⟩ : fpc = s.pc ∧ fop = s.read s.pc := by simpa [stopRecordLegal, hr] using hstop
      exact ⟨hpc, hop, nofun⟩
    | arithmeticFailure =>
      obtain ⟨⟨hpc, hop⟩, hdm⟩ : (fpc = s.pc ∧ fop = s.read s.pc) ∧ (fop = 0xA3 ∨ fop = 0xA4) := by
        simpa [stopRecordLegal, hr] using hstop
      exact ⟨hpc, hop, fun _ => hdm⟩

/-- Settles O38: the run state settles both sides, since a reachable state's parameters are allowed: a running core
steps, a halted one and a failed one answer their stop. -/
theorem runHasAStatusExactlyWhenItHasEnded : Obligations.RunHasAStatusExactlyWhenItHasEnded := by
  intro c image s h
  obtain ⟨hc, -⟩ := (inv_iff s).mp (inv_of_reachable h)
  unfold State.failed
  cases hr : s.run with
  | running =>
    obtain ⟨t, ht⟩ := cycle_next s
    rw [step_running hc hr, ht]
    simp [exitStatus]
  | halted =>
    rw [step_halted hc hr]
    simp [exitStatus]
  | faulted kind fpc fop =>
    rw [step_faulted hc hr]
    simp [exitStatus]

end Sys2Proof.Machine
end

section
/-! Each instruction on operands that name registers (41_data_move_output.md to 44_control_flow.md): its equation
`exec_…` gives the next state, and the lemmas here say what such a state leaves as it was. -/

namespace Sys2Proof.Machine

/-! ### What the shared forms of a next state leave unchanged -/

/-- A register write and an advance leave everything but that register and the pc. -/
theorem setReg_advance_frame (s : State) (r : RegIdx) (v : Byte) (n : Nat) :
    SameRegsExcept [r] s ((s.setReg r v).advance n) ∧ SameMemory s ((s.setReg r v).advance n) ∧
      SameRest s ((s.setReg r v).advance n) := by
  refine ⟨fun q hq => ?_, fun _ => rfl, rfl, rfl, rfl, rfl⟩
  exact setReg_reg_ne s r v (Ne.symm (List.ne_of_not_mem_cons hq))

/-- A push and a move of the pc leave everything but the stack pointer, the cell below it and the pc. -/
theorem push_setPc_frame (s : State) (v p : Byte) :
    SameRegsExcept [7] s ((s.push v).setPc p) ∧ SameMemoryExcept s.pushAddr s ((s.push v).setPc p) ∧
      SameRest s ((s.push v).setPc p) := by
  refine ⟨fun q hq => ?_, fun x hx => ?_, rfl, rfl, rfl, rfl⟩
  · rw [setPc_reg, push_reg, if_neg (Ne.symm (List.ne_of_not_mem_cons hq))]
  · rw [setPc_read, push_read, if_neg (Ne.symm hx)]

/-- A push leaves the stack pointer at the pushed byte's cell. -/
theorem push_reg_seven (s : State) (v : Byte) : (s.push v).reg 7 = s.pushAddr := by rw [push_reg, if_pos rfl]

/-- The pushed byte stands in its cell. -/
theorem push_read_pushAddr (s : State) (v : Byte) : (s.push v).read s.pushAddr = v := by rw [push_read, if_pos rfl]

/-! ### Data move and output -/

/-- Settles O34: LDI's next state (`exec_ldi`) is a register write and an advance. -/
theorem ldiLoadsItsImmediate : Obligations.LdiLoadsItsImmediate := by
  intro s a imm ra ha
  exact ⟨_, exec_ldi imm ha, setReg_reg_same s ra imm, nextPc_two_u8 s, setReg_advance_frame s ra imm 2⟩

/-- Settles O35: PRN's next state (`exec_prn`) differs in the output and the pc alone. -/
theorem prnEmitsItsRegister : Obligations.PrnEmitsItsRegister := by
  intro s a ra ha
  exact ⟨_, exec_prn ha, rfl, nextPc_one_u8 s, fun _ _ => rfl, fun _ => rfl, rfl, rfl, rfl⟩

/-- Settles O36: two steps by `step_of_opcode`; LDI writes no memory, so PRN is fetched from the bytes that stood
there. -/
theorem ldiThenPrnEmitsTheImmediate : Obligations.LdiThenPrnEmitsTheImmediate := by
  intro s a v r hc hr ha hop ha1 hv hop' ha'
  let t := (s.setReg r v).advance 2
  have hpc : t.pc = s.pc + 3 := nextPc_two s
  have hldi : step s = .next t := by
    rw [step_of_opcode (m := .ldi) hc hr hop, ha1, hv]
    exact exec_ldi v ha
  have hopt : t.read t.pc = 0x47 := by rw [hpc]; exact hop'
  have hat : t.read (t.pc + 1) = a := by rw [hpc, BitVec.add_assoc]; exact ha'
  have hprn : step t = .next ((t.emit (t.reg r)).advance 1) := by
    rw [step_of_opcode (s := t) (m := .prn) hc hr hopt, hat]
    exact exec_prn ha
  have hreg : t.reg r = v := setReg_reg_same s r v
  refine ⟨t, _, hldi, hprn, ?_, hr, ?_⟩
  · rw [advance_out, emit_out, hreg]
    rfl
  · rw [advance_pc, emit_nextPc, nextPc_one, hpc, BitVec.add_assoc]
    rfl

/-! ### The ALU -/

/-- `u8` in numbers (R9). -/
theorem toNat_u8 (v : Int) : (u8 v).toNat = (v % 256).toNat := BitVec.toNat_ofInt v

/-- `u8` of a natural number. -/
theorem toNat_u8_natCast (n : Nat) : (u8 (n : Int)).toNat = n % 256 := by
  rw [toNat_u8]
  omega

theorem toNat_u8_add (x y : Byte) : (u8 (x.toNat + y.toNat)).toNat = (x.toNat + y.toNat) % 256 := by
  rw [← toNat_u8_natCast, Nat.cast_add]

theorem toNat_u8_sub (x y : Byte) : (u8 (x.toNat - y.toNat)).toNat = (x.toNat + 256 - y.toNat) % 256 := by
  have := y.isLt
  rw [toNat_u8]
  omega

theorem toNat_u8_mul (x y : Byte) : (u8 (x.toNat * y.toNat)).toNat = x.toNat * y.toNat % 256 := by
  rw [← toNat_u8_natCast, Nat.cast_mul]

/-- A quotient of bytes is a byte. -/
theorem toNat_ofNat_div (x y : Byte) : (BitVec.ofNat 8 (x.toNat / y.toNat)).toNat = x.toNat / y.toNat := by
  rw [BitVec.toNat_ofNat, Nat.mod_eq_of_lt (lt_of_le_of_lt (Nat.div_le_self _ _) x.isLt)]

/-- A remainder of bytes is a byte. -/
theorem toNat_ofNat_mod (x y : Byte) : (BitVec.ofNat 8 (x.toNat % y.toNat)).toNat = x.toNat % y.toNat := by
  rw [BitVec.toNat_ofNat, Nat.mod_eq_of_lt (lt_of_le_of_lt (Nat.mod_le _ _) x.isLt)]

/-- The register an ALU instruction wrote, in numbers. -/
theorem toNat_setReg_advance {s : State} {r : RegIdx} {v : Byte} {k : Nat} (h : v.toNat = k) (n : Nat) :
    (((s.setReg r v).advance n).reg r).toNat = k := by
  rw [advance_reg, setReg_reg_same, h]

/-- Settles O40: `exec_add` with its result in numbers. -/
theorem addWritesTheSumModulo256 : Obligations.AddWritesTheSumModulo256 := by
  intro s a b ra rb ha hb
  exact ⟨_, exec_add ha hb, toNat_setReg_advance (toNat_u8_add _ _) 2, nextPc_two_u8 s, setReg_advance_frame s ra _ 2⟩

/-- Settles O41: `exec_sub` with its result in numbers. -/
theorem subWritesTheDifferenceModulo256 : Obligations.SubWritesTheDifferenceModulo256 := by
  intro s a b ra rb ha hb
  exact ⟨_, exec_sub ha hb, toNat_setReg_advance (toNat_u8_sub _ _) 2, nextPc_two_u8 s, setReg_advance_frame s ra _ 2⟩

/-- Settles O42: `exec_mul` with its result in numbers. -/
theorem mulWritesTheProductModulo256 : Obligations.MulWritesTheProductModulo256 := by
  intro s a b ra rb ha hb
  exact ⟨_, exec_mul ha hb, toNat_setReg_advance (toNat_u8_mul _ _) 2, nextPc_two_u8 s, setReg_advance_frame s ra _ 2⟩

/-- Settles O43: `exec_div` with its result in numbers; a quotient of bytes needs no reduction. -/
theorem divWritesTheUnsignedQuotient : Obligations.DivWritesTheUnsignedQuotient := by
  intro s a b ra rb ha hb hz
  exact ⟨_, exec_div ha hb hz, toNat_setReg_advance (toNat_ofNat_div _ _) 2, nextPc_two_u8 s,
    setReg_advance_frame s ra _ 2⟩

/-- Settles O44: quotient and remainder are those of the natural numbers, so the division identity is theirs. -/
theorem modWritesTheUnsignedRemainder : Obligations.ModWritesTheUnsignedRemainder := by
  intro s a b ra rb ha hb hz
  have hpos : 0 < (s.reg rb).toNat := Nat.pos_of_ne_zero fun h => hz (BitVec.eq_of_toNat_eq h)
  have hmod := toNat_setReg_advance (s := s) (r := ra) (toNat_ofNat_mod (s.reg ra) (s.reg rb)) 2
  have hdiv := toNat_setReg_advance (s := s) (r := ra) (toNat_ofNat_div (s.reg ra) (s.reg rb)) 2
  refine ⟨_, exec_mod ha hb hz, hmod, ?_, ⟨_, exec_div ha hb hz, ?_⟩, nextPc_two_u8 s, setReg_advance_frame s ra _ 2⟩
  · rw [hmod]
    exact Nat.mod_lt _ hpos
  · rw [hmod, hdiv]
    exact Nat.div_add_mod' _ _

/-- Settles O45: with a zero divisor the ALU answers `zeroDivisor`, and the write-back raises with the row's byte. -/
theorem zeroDivisorRaisesArithmeticFailure : Obligations.ZeroDivisorRaisesArithmeticFailure := by
  intro s a b ra rb ha hb hz
  exact ⟨aluInstr_zeroDivisor ha hb (if_pos hz), aluInstr_zeroDivisor ha hb (if_pos hz)⟩

/-- Settles O46: CMP's next state (`exec_cmp`) has the comparison's flags in the whole of `FL`. -/
theorem cmpSetsExactlyOneFlag : Obligations.CmpSetsExactlyOneFlag := by
  intro s a b ra rb ha hb
  exact ⟨_, exec_cmp ha hb, compareFlags_of_eq, compareFlags_of_gt, compareFlags_of_lt, nextPc_two_u8 s,
    fun _ _ => rfl, fun _ => rfl, rfl, rfl, rfl⟩

/-! ### The stack -/

/-- Settles O48: PUSH's next state (`exec_push`) is a push of the register and an advance. -/
theorem pushStoresBelowTheStackPointer : Obligations.PushStoresBelowTheStackPointer := by
  intro s a ra ha
  exact ⟨_, exec_push ha, pushAddr_u8 s, push_reg_seven s (s.reg ra), push_read_pushAddr s (s.reg ra),
    nextPc_one_u8 s, push_setPc_frame s (s.reg ra) (s.nextPc 1)⟩

/-- Settles O49: POP's next state (`exec_pop`) drops the top and then writes its destination, so a destination that is
register 7 keeps the popped byte. -/
theorem popLoadsFromTheStackPointer : Obligations.PopLoadsFromTheStackPointer := by
  intro s a ra ha
  refine ⟨_, exec_pop ha, setReg_reg_same _ ra _, fun hne => ?_, nextPc_one_u8 s, fun r hr => ?_, fun _ => rfl,
    rfl, rfl, rfl, rfl⟩
  · exact (setReg_reg_ne _ ra _ hne).trans (dropTop_reg_seven s)
  · obtain ⟨hra, h7⟩ : r ≠ ra ∧ r ∉ [7] := not_or.mp (mt List.mem_cons.mpr hr)
    exact (setReg_reg_ne _ ra _ hra.symm).trans (dropTop_sameRegsExcept s r h7)

/-- A pop right after a push finds the pushed byte. -/
theorem top_push_advance (s : State) (v : Byte) (n : Nat) : ((s.push v).advance n).top = v := by
  rw [top_eq, advance_reg, push_reg_seven]
  exact push_read_pushAddr s v

/-- The stack pointer after a push and a pop is where it was. -/
theorem pushAddr_add_one (s : State) : s.pushAddr + 1 = s.reg 7 := by rw [pushAddr_eq, BitVec.sub_add_cancel]

/-- Settles O50: POP finds the byte PUSH left (`top_push_advance`) and moves the stack pointer back. -/
theorem pushThenPopCopiesTheRegister : Obligations.PushThenPopCopiesTheRegister := by
  intro s a b ra rb ha hb _ hrb
  let t := (s.push (s.reg ra)).advance 1
  have htop : t.top = s.reg ra := top_push_advance s _ 1
  have hreg {r : RegIdx} (hr : rb ≠ r) : (t.dropTop.setReg rb t.top).reg r = t.dropTop.reg r := setReg_reg_ne _ _ _ hr
  refine ⟨t, _, exec_push ha, exec_pop (s := t) hb, ?_, ?_, push_read_pushAddr s _, fun r hr => ?_⟩
  · rw [advance_reg, setReg_reg_same, htop]
  · rw [advance_reg, hreg hrb, dropTop_reg, if_pos rfl, advance_reg, push_reg_seven, pushAddr_add_one]
  · rw [advance_reg, hreg (Ne.symm (List.ne_of_not_mem_cons hr))]
    by_cases h7 : 7 = r
    · rw [dropTop_reg, if_pos h7, advance_reg, push_reg_seven, pushAddr_add_one, h7]
    · rw [dropTop_reg, if_neg h7, advance_reg, push_reg, if_neg h7]

/-- A step that fetches PUSH or CALL pushes a byte and goes on at an address. -/
theorem step_push_or_call {s : State} {a v next : Byte} {r : RegIdx} (hc : s.cfg.wf = true) (hr : s.run = .running)
    (ha : NamesReg s.cfg a r) (hbyte : s.read (s.pc + 1) = a)
    (hop : s.read s.pc = 0x45 ∧ v = s.reg r ∧ next = s.pc + 2 ∨
      s.read s.pc = 0x50 ∧ v = s.pc + 2 ∧ next = s.reg r) :
    step s = .next ((s.push v).setPc next) := by
  rcases hop with ⟨hop, rfl, rfl⟩ | ⟨hop, rfl, rfl⟩
  · rw [step_of_opcode (m := .push) hc hr hop, hbyte, ← nextPc_one]
    exact exec_push ha
  · rw [step_of_opcode (m := .call) hc hr hop, hbyte, ← nextPc_one]
    exact exec_call ha

/-- Settles O51: the step is a push and a move of the pc (`step_push_or_call`), so the next fetch is a read of the
memory that the push left. -/
theorem pushedBytesAreFetchedByLaterCycles : Obligations.PushedBytesAreFetchedByLaterCycles := by
  intro s a v next r hc hr ha hbyte hop
  let t := (s.push v).setPc next
  have hread (x : Byte) : t.read x = if x = s.pushAddr then v else s.read x := by
    rw [setPc_read, push_read]
    simp only [eq_comm]
  have hfetch : t.fetch = [next, next + 1, next + 2].map fun x => if x = s.pushAddr then v else s.read x :=
    List.map_congr_left (l := [next, next + 1, next + 2]) fun x _ => hread x
  refine ⟨t, step_push_or_call hc hr ha hbyte hop, rfl, hr, hread, hfetch, fun i rest hd => ?_, fun hcell hv => ?_⟩
  · exact (step_running (s := t) hc hr).trans (cycle_of_decode (hfetch ▸ hd))
  · have hhlt : t.read t.pc = 0x01 := by
      rw [hread]
      exact (if_pos hcell.symm).trans hv
    exact ⟨_, step_of_opcode (s := t) (m := .hlt) hc hr hhlt, rfl, nextPc_zero t⟩

/-! ### Control flow -/

/-- Settles O52: JMP's next state (`exec_jmp`) differs in the pc alone. -/
theorem jmpGoesToItsRegister : Obligations.JmpGoesToItsRegister := by
  intro s a ra ha
  exact ⟨_, exec_jmp ha, rfl, fun _ _ => rfl, fun _ => rfl, rfl, rfl, rfl, rfl⟩

/-- A conditional jump leaves everything but the pc. -/
theorem jump_frame (s : State) (taken : Bool) (v : Byte) :
    SameRegsExcept [] s (if taken then s.setPc v else s.advance 1) ∧
      SameMemory s (if taken then s.setPc v else s.advance 1) ∧
      SameRest s (if taken then s.setPc v else s.advance 1) := by
  cases taken
  · exact ⟨fun _ _ => rfl, fun _ => rfl, rfl, rfl, rfl, rfl⟩
  · exact ⟨fun _ _ => rfl, fun _ => rfl, rfl, rfl, rfl, rfl⟩

/-- Each conditional jump and its condition on one bit of the flags (R172 to R175). -/
theorem exec_conditionalJump {s : State} {a : Byte} {ra : RegIdx} {i : Instr} {taken : Prop} (ha : NamesReg s.cfg a ra)
    (hi : i = .jeq a ∧ (taken ↔ s.fl.getLsbD 0 = true) ∨ i = .jne a ∧ (taken ↔ s.fl.getLsbD 0 = false) ∨
      i = .jgt a ∧ (taken ↔ s.fl.getLsbD 1 = true) ∨ i = .jlt a ∧ (taken ↔ s.fl.getLsbD 2 = true)) :
    ∃ b : Bool, (taken ↔ b = true) ∧ exec i s = .next (if b then s.setPc (s.reg ra) else s.advance 1) := by
  obtain ⟨rfl, ht⟩ | ⟨rfl, ht⟩ | ⟨rfl, ht⟩ | ⟨rfl, ht⟩ := hi
  · exact ⟨_, ht, exec_jeq ha⟩
  · exact ⟨_, ht.trans (Bool.not_eq_true' _).symm.to_iff, exec_jne ha⟩
  · exact ⟨_, ht, exec_jgt ha⟩
  · exact ⟨_, ht, exec_jlt ha⟩

/-- Settles O53: the four jumps have one form (`exec_conditionalJump`), taken or not. -/
theorem conditionalJumpsFollowTheirFlag : Obligations.ConditionalJumpsFollowTheirFlag := by
  intro s a ra i taken ha hi
  obtain ⟨b, hb, hexec⟩ := exec_conditionalJump ha hi
  refine ⟨_, hexec, fun ht => ?_, fun hn => ?_, jump_frame s b _⟩
  · rw [if_pos (hb.mp ht)]
    rfl
  · rw [if_neg (mt hb.mpr hn)]
    exact nextPc_one_u8 s

/-- Settles O54: CALL's next state (`exec_call`) is a push of the return address and a move of the pc. -/
theorem callPushesTheReturnAddress : Obligations.CallPushesTheReturnAddress := by
  intro s a ra ha
  exact ⟨_, exec_call ha, pushAddr_u8 s, push_reg_seven s (s.nextPc 1),
    (push_read_pushAddr s (s.nextPc 1)).trans (nextPc_one_u8 s), rfl, push_setPc_frame s (s.nextPc 1) (s.reg ra)⟩

/-- Settles O56: HLT's next state (`exec_hlt`) differs in the run state and the pc. -/
theorem hltHaltsAndAdvances : Obligations.HltHaltsAndAdvances := by
  intro s
  exact ⟨_, exec_hlt, rfl, nextPc_zero_u8 s, fun _ _ => rfl, fun _ => rfl, rfl, rfl, rfl⟩

/-- Settles O57: RET pops the cell CALL pushed, which still holds the return address, and moves the stack pointer
back. -/
theorem retResumesAfterTheCall : Obligations.RetResumesAfterTheCall := by
  intro s t u a ra ha hcall hsp hcell
  obtain rfl : (s.push (s.nextPc 1)).setPc (s.reg ra) = t := by
    rw [exec_call ha] at hcall
    exact Host.Outcome.next.inj hcall
  have hu7 : u.reg 7 = s.pushAddr := hsp.trans (push_reg_seven s (s.nextPc 1))
  refine ⟨rfl, _, exec_ret, ?_, ?_⟩
  · rw [setPc_pc, top_eq, hcell, hu7, setPc_read, push_read_pushAddr, nextPc_one]
  · rw [setPc_reg, dropTop_reg, if_pos rfl, hu7, pushAddr_add_one]

/-- Where a jump's target is not the address after it, the pc says whether it was taken. -/
theorem jump_pc_eq_iff {s : State} {v : Byte} (h : v ≠ s.pc + 2) (taken : Bool) :
    (if taken then s.setPc v else s.advance 1).pc = v ↔ taken = true := by
  cases taken
  · exact iff_of_false (fun e => h (e.symm.trans (nextPc_one s))) nofun
  · exact iff_of_true rfl rfl

/-- Settles O58: after CMP the flag each jump reads is the comparison (`flags_compareFlags`), and the pc
says whether the jump was taken (`jump_pc_eq_iff`). -/
theorem branchesAgreeWithTheComparison : Obligations.BranchesAgreeWithTheComparison := by
  intro s t a b j ra rb rj ha hb hj hcmp hne
  obtain rfl : (s.setFl (compareFlags (s.reg ra) (s.reg rb))).advance 2 = t := by
    rw [exec_cmp ha hb] at hcmp
    exact Host.Outcome.next.inj hcmp
  obtain ⟨hE, hG, hL⟩ := flags_compareFlags (s.reg ra) (s.reg rb)
  refine ⟨_, _, _, _, exec_jeq hj, exec_jne hj, exec_jgt hj, exec_jlt hj, ?_, ?_, ?_, ?_⟩
  · exact (jump_pc_eq_iff hne _).trans hE
  · refine (jump_pc_eq_iff hne _).trans ?_
    rw [takenJne, Bool.not_eq_true', ← Bool.not_eq_true]
    exact not_congr hE
  · exact (jump_pc_eq_iff hne _).trans hG
  · exact (jump_pc_eq_iff hne _).trans hL

/-- A run goes on from the state its first step answers. -/
theorem run_succ_of_next {M : Host.Core} {s t : M.State} (h : M.step s = .next t) (k : Nat) :
    M.run (k + 1) s = M.run k t := by
  simp only [Host.Core.run, h]

/-- Settles O59: one step of the jump gives the same state, and then so does any number, by induction. -/
theorem jumpToItselfNeverEnds : Obligations.JumpToItselfNeverEnds := by
  intro s a ra hc hr ha hop hbyte hself k
  have hstep : core.step s = .next s := by
    refine (step_of_opcode (m := .jmp) hc hr hop).trans ?_
    rw [hbyte]
    refine (exec_jmp ha).trans ?_
    rw [hself]
    rfl
  induction k with
  | zero => rfl
  | succ k ih => exact (run_succ_of_next hstep k).trans ih

end Sys2Proof.Machine
end

section
/-! What the instructions read and write of the flags, the output, the parameters and the registers (R23, R25, R28,
R106). `RestUse` says of the first three what `MemoryUse` says of memory. -/

namespace Sys2Proof.Machine

/-- The instructions that read the flags: the conditional jumps (R25). -/
def readsFlags : Instr → Bool
  | .jeq _ | .jne _ | .jgt _ | .jlt _ => true
  | _ => false

/-- Parameters `c` and flags `fl` that an instruction cannot tell from those of `s`: they name the same registers, give
the rows the same bytes, reject a byte wherever `s` does, and show a conditional jump the same flags. -/
structure Alike (s : State) (i : Instr) (c : Config) (fl : Byte) : Prop where
  names {b r} : b ∈ i.registerBytes → NamesReg s.cfg b r → NamesReg c b r
  opcode : ∀ m : Mnemonic, m.opcode c = m.opcode s.cfg
  rejects : s.cfg.regIndexMode = .fault → c.regIndexMode = .fault
  flags : readsFlags i = true → fl = s.fl

/-- What an instruction that takes `s` to `t` does with the flags and the output, in `s` and in `s` with other
parameters, flags and output. -/
inductive RestUse (s : State) (i : Instr) (t : State) : Prop
  /-- It keeps the flags and the output it finds, and acts alike whatever they are. -/
  | kept (hfl : t.fl = s.fl) (hout : t.out = s.out)
      (hexec : ∀ (c : Config) (fl : Byte) (o : List Byte), Alike s i c fl →
        exec i { s with cfg := c, fl := fl, out := o } = .next { t with cfg := c, fl := fl, out := o })
  /-- PRN (R122). -/
  | printed (a : Byte) (ra : RegIdx) (hi : i = .prn a) (ha : NamesReg s.cfg a ra)
      (ht : t = (s.emit (s.reg ra)).advance 1)
  /-- CMP (R136). -/
  | compared (a b : Byte) (ra rb : RegIdx) (hi : i = .cmp a b) (ha : NamesReg s.cfg a ra) (hb : NamesReg s.cfg b rb)
      (ht : t = (s.setFl (compareFlags (s.reg ra) (s.reg rb))).advance 2)

/-- A conditional jump keeps the flags and the output, taken or not. -/
theorem RestUse.jump {s : State} {i : Instr} {taken : Byte → Bool} {v : Byte} (hi : readsFlags i = true)
    (hexec : ∀ (c : Config) (fl : Byte) (o : List Byte), Alike s i c fl →
      exec i { s with cfg := c, fl := fl, out := o } =
        .next (if taken fl then State.setPc { s with cfg := c, fl := fl, out := o } v
          else State.advance { s with cfg := c, fl := fl, out := o } 1)) :
    RestUse s i (if taken s.fl then s.setPc v else s.advance 1) := by
  refine .kept (by split <;> rfl) (by split <;> rfl) fun c fl o h => ?_
  rw [hexec c fl o h, h.flags hi]
  split <;> rfl

/-- R25 and R28 for every way an instruction ends. -/
theorem restUse_of_execTo {s t : State} {i : Instr} (h : ExecTo s i t) : RestUse s i t := by
  cases h with
  | raised _ hm hwf =>
    refine .kept rfl rfl fun c fl o h => ?_
    rw [exec_not_wf (h.rejects hm) hwf, h.opcode]
    rfl
  | hlt => exact .kept rfl rfl fun _ _ _ _ => exec_hlt
  | ret => exact .kept rfl rfl fun _ _ _ _ => exec_ret
  | prn a ra ha => exact .printed a ra rfl ha rfl
  | cmp a b ra rb ha hb => exact .compared a b ra rb rfl ha hb rfl
  | ldi a imm ra ha => exact .kept rfl rfl fun _ _ _ h => exec_ldi imm (h.names (.head _) ha)
  | add a b ra rb v ha hb hv | sub a b ra rb v ha hb hv | mul a b ra rb v ha hb hv
  | div a b ra rb v ha hb hv | mod a b ra rb v ha hb hv =>
    exact .kept rfl rfl fun _ _ _ h => aluInstr_value (h.names (.head _) ha)
      (h.names (.tail _ (.head _)) hb) hv
  | divz a b ra rb ha hb hz | modz a b ra rb ha hb hz =>
    exact .kept rfl rfl fun _ _ _ h => aluInstr_zeroDivisor (h.names (.head _) ha)
      (h.names (.tail _ (.head _)) hb) (if_pos hz)
  | push a ra ha => exact .kept rfl rfl fun _ _ _ h => exec_push (h.names (.head _) ha)
  | pop a ra ha => exact .kept rfl rfl fun _ _ _ h => exec_pop (h.names (.head _) ha)
  | jmp a ra ha => exact .kept rfl rfl fun _ _ _ h => exec_jmp (h.names (.head _) ha)
  | call a ra ha => exact .kept rfl rfl fun _ _ _ h => exec_call (h.names (.head _) ha)
  | jeq a ra ha => exact .jump rfl fun _ _ _ h => exec_jeq (h.names (.head _) ha)
  | jne a ra ha => exact .jump rfl fun _ _ _ h => exec_jne (h.names (.head _) ha)
  | jgt a ra ha => exact .jump rfl fun _ _ _ h => exec_jgt (h.names (.head _) ha)
  | jlt a ra ha => exact .jump rfl fun _ _ _ h => exec_jlt (h.names (.head _) ha)

/-- Under its own parameters, and flags that only a conditional jump reads, a state is like itself. -/
theorem alike_self {s : State} {i : Instr} {fl : Byte} (h : readsFlags i = true → fl = s.fl) : Alike s i s.cfg fl :=
  ⟨fun _ => id, fun _ => rfl, id, h⟩

theorem readsFlags_iff (i : Instr) : readsFlags i = true ↔ ∃ a, i = .jeq a ∨ i = .jne a ∨ i = .jgt a ∨ i = .jlt a := by
  cases i <;> simp [readsFlags]

/-- Settles O28: for bytes up to 7 the two modes name the same registers, so the parameters of the one are like those of
the other (`RestUse`). -/
theorem registerIndexModesAgreeUpTo7 : Obligations.RegisterIndexModesAgreeUpTo7 := by
  intro i s t hbytes h
  let u : State := { s with cfg := { s.cfg with regIndexMode := .mask } }
  have hexec : ExecTo u i t := execTo_of_exec h
  have hcfg : t.cfg = u.cfg := cfg_of_execTo hexec
  have hnames {b : Byte} {r : RegIdx} (hb : b ∈ i.registerBytes) :
      NamesReg u.cfg b r → NamesReg { s.cfg with regIndexMode := .fault } b r := by
    rintro (⟨-, hr⟩ | ⟨hm, -⟩)
    · exact .inr ⟨rfl, hr.trans (Nat.mod_eq_of_lt (Nat.lt_succ_of_le (hbytes b hb)))⟩
    · cases hm
  refine ⟨congrArg Config.regIndexMode hcfg, ?_⟩
  rw [hcfg]
  cases restUse_of_execTo hexec with
  | kept hfl hout hother =>
    have halike : Alike u i { s.cfg with regIndexMode := .fault } s.fl :=
      ⟨hnames, fun m => by cases m <;> rfl, nofun, fun _ => rfl⟩
    refine (hother _ s.fl s.out halike).trans ?_
    exact congrArg Host.Outcome.next (State.ext_fields rfl rfl rfl hfl.symm rfl hout.symm rfl)
  | printed a ra hi ha ht =>
    subst hi ht
    exact exec_prn (hnames (.head _) ha)
  | compared a b ra rb hi ha hb ht =>
    subst hi ht
    exact exec_cmp (hnames (.head _) ha) (hnames (.tail _ (.head _)) hb)

/-- Settles O30: of the three ways an instruction uses the flags (`RestUse`) only CMP's writes them, and only a
conditional jump asks that they be the same. -/
theorem flagsAreWrittenByCmpAndReadByJumps : Obligations.FlagsAreWrittenByCmpAndReadByJumps := by
  intro i s t h
  have hcfg := cfg_of_execTo (execTo_of_exec h)
  have huse := restUse_of_execTo (execTo_of_exec h)
  refine ⟨fun hi => ?_, fun a b ra rb hi ha hb => ?_, fun hi fl => ?_⟩
  · cases huse with
    | kept hfl => exact hfl
    | printed _ _ _ _ ht => rw [ht]; rfl
    | compared a b _ _ hcmp => exact absurd hcmp (hi a b)
  · subst hi
    rw [exec_cmp ha hb] at h
    cases h
    obtain ⟨hE, hG, hL⟩ := flags_compareFlags (s.reg ra) (s.reg rb)
    refine ⟨hE, hG, hL, ?_⟩
    rw [advance_fl, setFl_fl]
    rcases compareFlags_cases (s.reg ra) (s.reg rb) with ⟨-, e⟩ | ⟨-, e⟩ | ⟨-, e⟩ <;> rw [e] <;> decide
  · have hreads : readsFlags i = true → fl = s.fl := fun hr => by
      obtain ⟨a, ha⟩ := (readsFlags_iff i).mp hr
      have := hi a
      tauto
    cases huse with
    | kept hfl hout hexec =>
      exact ⟨_, hexec s.cfg fl s.out (alike_self hreads), State.ext_fields hcfg.symm rfl rfl rfl rfl hout.symm rfl⟩
    | printed a ra hprn ha ht =>
      subst hprn ht
      exact ⟨_, exec_prn (s := { s with fl := fl }) ha, rfl⟩
    | compared a b ra rb hcmp ha hb ht =>
      subst hcmp ht
      exact ⟨_, exec_cmp (s := { s with fl := fl }) ha hb, rfl⟩

/-- Settles O31: of the three ways an instruction uses the output (`RestUse`) only PRN's adds to it, and none depends on
what is there. -/
theorem outputIsWrittenByPrnAlone : Obligations.OutputIsWrittenByPrnAlone := by
  intro i s t h
  have hcfg := cfg_of_execTo (execTo_of_exec h)
  have huse := restUse_of_execTo (execTo_of_exec h)
  refine ⟨fun hi => ?_, fun a ra hi ha => ?_, fun o => ?_⟩
  · cases huse with
    | kept _ hout => exact hout
    | printed a _ hprn => exact absurd hprn (hi a)
    | compared _ _ _ _ _ _ _ ht => rw [ht]; rfl
  · subst hi
    rw [exec_prn ha] at h
    cases h
    rfl
  · cases huse with
    | kept hfl hout hexec =>
      refine ⟨_, hexec s.cfg s.fl o (alike_self fun _ => rfl), ?_,
        State.ext_fields hcfg.symm rfl rfl hfl.symm rfl rfl rfl⟩
      rw [hout, List.drop_length, List.append_nil]
    | printed a ra hprn ha ht =>
      subst hprn ht
      refine ⟨_, exec_prn (s := { s with out := o }) ha, ?_, rfl⟩
      rw [advance_out, advance_out, emit_out, emit_out, List.drop_left]
      rfl
    | compared a b ra rb hcmp ha hb ht =>
      subst hcmp ht
      refine ⟨_, exec_cmp (s := { s with out := o }) ha hb, ?_, rfl⟩
      simp

/-- A register that a write changes is the one written. -/
theorem eq_of_setReg_reg_ne {s : State} {q r : RegIdx} {v : Byte} (h : (s.setReg q v).reg r ≠ s.reg r) : r = q := by
  by_contra hne
  exact h (setReg_reg_ne s q v (Ne.symm hne))

/-- Settles O32: for each way an instruction ends, the register that changed is one that it writes. -/
theorem eachInstructionWritesOnlyItsRegisters : Obligations.EachInstructionWritesOnlyItsRegisters := by
  intro i s t r h hne
  cases execTo_of_exec h with
  | raised | hlt | prn | divz | modz | cmp | jmp => exact absurd rfl hne
  | jeq | jne | jgt | jlt => exact absurd (by split <;> rfl) hne
  | ldi a imm ra ha =>
    obtain rfl := eq_of_setReg_reg_ne hne
    exact .inl ⟨a, imm, rfl, ha⟩
  | add a b ra rb v ha | sub a b ra rb v ha | mul a b ra rb v ha | div a b ra rb v ha | mod a b ra rb v ha =>
    obtain rfl := eq_of_setReg_reg_ne hne
    exact .inr (.inl ⟨a, b, by simp, ha⟩)
  | push a ra ha =>
    exact .inr (.inr (.inr (.inl ⟨⟨a, .inl rfl⟩, eq_of_setReg_reg_ne hne⟩)))
  | call a ra ha =>
    exact .inr (.inr (.inr (.inl ⟨⟨a, .inr rfl⟩, eq_of_setReg_reg_ne hne⟩)))
  | ret => exact .inr (.inr (.inr (.inr ⟨rfl, eq_of_setReg_reg_ne hne⟩)))
  | pop a ra ha =>
    refine .inr (.inr (.inl ⟨a, rfl, ?_⟩))
    by_cases hra : r = ra
    · exact .inr (hra ▸ ha)
    · rw [advance_reg, setReg_reg_ne _ _ _ (Ne.symm hra)] at hne
      exact .inl (eq_of_setReg_reg_ne hne)

end Sys2Proof.Machine
end

section
/-! Memory over many writes (R60), the ALU operations no opcode reaches (R138 to R145), and the host's rendering of the
output (R123). -/

namespace Sys2Proof.Machine

/-! ### Memory -/

/-- Settles O33, by induction on the writes, the last one first. -/
theorem readReturnsTheMostRecentWrite : Obligations.ReadReturnsTheMostRecentWrite := by
  intro s ws a
  induction ws using List.reverseRecOn with
  | nil => rfl
  | append_singleton ws w ih =>
    rw [List.foldl_append, List.reverse_append]
    refine (write_read _ w.1 a w.2).trans ?_
    by_cases hw : w.1 = a
    · simp [hw]
    · rw [if_neg hw, ih]
      simp [hw]

/-! ### The ALU alone -/

/-- A byte shifted right by 8 or more is 0. -/
theorem div_two_pow_eq_zero {x : Byte} {k : Nat} (h : 8 ≤ k) : x.toNat / 2 ^ k = 0 :=
  Nat.div_eq_of_lt (lt_of_lt_of_le x.isLt (Nat.pow_le_pow_right (by decide) h))

/-- A multiple of 256 is 0 modulo 256. -/
theorem mul_two_pow_mod_eq_zero (x : Nat) {k : Nat} (h : 8 ≤ k) : x * 2 ^ k % 256 = 0 :=
  Nat.mod_eq_zero_of_dvd (Dvd.dvd.mul_left (Nat.pow_dvd_pow 2 h) x)

/-- Settles O47: the bitwise operations are the bit vectors' own, and the others are `u8` of the exact result. -/
theorem aluOnlyOperationsHaveTheirConventionalMeaning :
    Obligations.AluOnlyOperationsHaveTheirConventionalMeaning := by
  intro a b
  have ha := a.isLt
  have hnot : (u8 (255 - (a.toNat : Int))).toNat = 255 - a.toNat := by
    rw [toNat_u8]
    omega
  have hshl : (u8 ((a.toNat : Int) * 2 ^ b.toNat)).toNat = a.toNat * 2 ^ b.toNat % 256 := by
    rw [← toNat_u8_natCast]
    push_cast
    rfl
  have hshr : (BitVec.ofNat 8 (a.toNat / 2 ^ b.toNat)).toNat = a.toNat / 2 ^ b.toNat := by
    rw [BitVec.toNat_ofNat, Nat.mod_eq_of_lt (lt_of_le_of_lt (Nat.div_le_self _ _) ha)]
  have hinc : (u8 ((a.toNat : Int) + 1)).toNat = (a.toNat + 1) % 256 := by
    rw [toNat_u8]
    omega
  have hdec : (u8 ((a.toNat : Int) - 1)).toNat = (a.toNat + 255) % 256 := by
    rw [toNat_u8]
    omega
  refine ⟨⟨_, rfl, fun k => BitVec.getLsbD_and⟩, ⟨_, rfl, fun k => BitVec.getLsbD_or⟩,
    ⟨_, rfl, fun k => BitVec.getLsbD_xor⟩, ⟨_, rfl, hnot, ?_⟩, ⟨_, rfl, hshl, fun h8 => ?_⟩,
    ⟨_, rfl, hshr, fun h8 => ?_⟩, ⟨_, rfl, hinc⟩, ⟨_, rfl, hdec⟩⟩
  · exact BitVec.eq_of_toNat_eq (hnot.trans (BitVec.toNat_not (x := a)).symm)
  · exact BitVec.eq_of_toNat_eq (hshl.trans (mul_two_pow_mod_eq_zero a.toNat h8))
  · exact BitVec.eq_of_toNat_eq (hshr.trans (div_two_pow_eq_zero h8))

/-! ### The rendering -/

/-- The digits of a byte's line are digits, so the newline that ends it is the first of the text. -/
theorem isDigit_of_mem_digits {n : Nat} {ch : Char} (h : ch ∈ Nat.toDigits 10 n) : ch.isDigit = true :=
  Nat.isDigit_of_mem_toDigits (by decide) (by decide) h

/-- The leading digits of a rendered text are its first byte's. -/
theorem takeWhile_isDigit_renderByte (v : Byte) (text : List Char) :
    (renderByte v ++ text).takeWhile Char.isDigit = Nat.toDigits 10 v.toNat := by
  rw [renderByte, List.append_assoc, List.takeWhile_append_of_pos fun _ h => isDigit_of_mem_digits h]
  exact List.append_nil _

/-- A byte's line and the text after it can be told apart. -/
theorem renderByte_append_inj {v w : Byte} {text text' : List Char} (h : renderByte v ++ text = renderByte w ++ text') :
    v = w ∧ text = text' := by
  have hdigits : Nat.toDigits 10 v.toNat = Nat.toDigits 10 w.toNat := by
    rw [← takeWhile_isDigit_renderByte v text, h, takeWhile_isDigit_renderByte]
  have hvw : v = w := BitVec.eq_of_toNat_eq <| by
    rw [← Nat.ofDigitChars_ten_toDigits (n := v.toNat), hdigits, Nat.ofDigitChars_ten_toDigits]
  subst hvw
  exact ⟨rfl, List.append_cancel_left h⟩

/-- The rendered output determines the bytes, line by line. -/
theorem renderOut_injective : Function.Injective renderOut := by
  intro out
  induction out with
  | nil =>
    rintro (_ | ⟨w, ws⟩) h
    · rfl
    · simp [renderOut, renderByte] at h
  | cons v vs ih =>
    rintro (_ | ⟨w, ws⟩) h
    · simp [renderOut, renderByte] at h
    · obtain ⟨rfl, htail⟩ := renderByte_append_inj (text := renderOut vs) (text' := renderOut ws) h
      rw [ih htail]

/-- Settles O37: the lines stand one after the other, and `renderOut_injective` reads the bytes back. -/
theorem renderedOutputDeterminesTheBytes : Obligations.RenderedOutputDeterminesTheBytes := by
  refine ⟨rfl, fun out v => ?_, fun out out' h => renderOut_injective h⟩
  rw [renderOut, renderOut, List.flatMap_append, List.flatMap_singleton, renderByte, Nat.toString_eq_ofList_toDigits,
    String.toList_ofList, List.append_assoc]

end Sys2Proof.Machine
end

section
/-! Assembly (30_encoding.md section 6): which statements assemble, to which bytes, and which instructions have one. -/

namespace Sys2Proof.Machine

/-- An operand has a register byte where it is a register or `SP` (R82). -/
theorem exists_regByte_iff (p : AsmOperand) : (∃ a, p.regByte = some a) ↔ p = .sp ∨ ∃ r, p = .reg r := by
  cases p <;> simp [AsmOperand.regByte]

/-- A statement assembles to the encoding of the instruction it writes. -/
theorem assemble_eq_some {c : Config} {t : AsmStatement} {bs : List Byte} :
    t.assemble c = some bs ↔ ∃ i, t.instr = some i ∧ encode c i = bs := Option.map_eq_some_iff

/-- The byte an operand of a statement stands for (R82). -/
def AsmOperand.byte : AsmOperand → Byte
  | .reg r => BitVec.ofNat 8 r.val
  | .sp => 7
  | .imm v => v

/-- A register operand stands for its register byte. -/
theorem byte_of_regByte {p : AsmOperand} {a : Byte} (h : p.regByte = some a) : p.byte = a := by
  obtain ⟨r, rfl, rfl⟩ | ⟨rfl, rfl⟩ := regByte_eq_some.mp h <;> rfl

@[simp] theorem byte_imm (v : Byte) : (AsmOperand.imm v).byte = v := rfl

/-- What a statement writes: its mnemonic's instruction, with its operands' bytes, all of whose register bytes are 0 to
7. -/
theorem asm_instr_spec {t : AsmStatement} {i : Instr} (h : t.instr = some i) :
    i.mnemonic = t.mnemonic ∧ i.operandBytes = t.operands.map AsmOperand.byte ∧ i.wf .fault = true := by
  have hle {p : AsmOperand} {a : Byte} (hp : p.regByte = some a) : RegIndexMode.fault.admits a = true :=
    decide_eq_true (regByte_le hp)
  rcases asm_instr_eq_some.mp h with ⟨hf, ho, rfl⟩ | ⟨p, a, hf, ho, hp, rfl⟩ | ⟨p, q, a, b, hf, ho, hp, hq, rfl⟩ |
    ⟨p, a, v, hf, ho, hp, rfl⟩
  all_goals rw [mnemonic_instr, operandBytes_instr, Instr.wf, registerBytes_instr, hf, ho]
  · exact ⟨rfl, rfl, rfl⟩
  · simp [Format.operandCount, byte_of_regByte hp, hle hp]
  · simp [Format.operandCount, byte_of_regByte hp, byte_of_regByte hq, hle hp, hle hq]
  · simp [Format.operandCount, byte_of_regByte hp, hle hp]

/-- Settles O10: the forms are those of `asm_instr_eq_some`, the bytes those of `asm_instr_spec`, and decoding undoes
the encoding. -/
theorem assembledBytesDecodeToTheStatement : Obligations.AssembledBytesDecodeToTheStatement := by
  intro c t hc
  constructor
  · simp only [assemble_eq_some, asm_instr_eq_some, ← exists_regByte_iff]
    cases hf : t.mnemonic.format with
    | f0 => simp
    | f1r => simp
    | f2r => simp
    | f2i => simp
  · intro bs hbs
    obtain ⟨i, hi, rfl⟩ := assemble_eq_some.mp hbs
    obtain ⟨hm, hops, hwf⟩ := asm_instr_spec hi
    have hdecode : decode c (encode c i) = .ok (i, []) := by
      simpa using decodeOfEncodeGivesTheInstructionBack c i [] hc
    refine ⟨?_, i, hdecode, hm, ?_, hwf⟩
    · rw [encode, hm, hops]
      rfl
    · rw [encode, hm]

/-- A byte 0 to 7 is written as a register. -/
theorem exists_asmRegister {b : Byte} (h : b.toNat ≤ 7) : ∃ p, asmRegister b = some p :=
  ⟨_, dif_pos (Nat.lt_succ_of_le h)⟩

/-- The register a byte is written as has that byte. -/
theorem regByte_of_asmRegister {b : Byte} {p : AsmOperand} (h : asmRegister b = some p) : p.regByte = some b := by
  obtain ⟨hlt, hp⟩ := Option.dite_none_right_eq_some.mp h
  cases hp
  rw [AsmOperand.regByte, BitVec.ofNat_toNat, BitVec.setWidth_eq]

/-- Every instruction whose register bytes are 0 to 7 is written as a statement. -/
theorem exists_asmOf {i : Instr} (h : i.wf .fault = true) : ∃ t, asmOf i = some t := by
  have hreg {b : Byte} (hb : b ∈ i.registerBytes) : ∃ p, asmRegister b = some p :=
    exists_asmRegister (of_decide_eq_true (List.all_eq_true.mp h b hb))
  cases i with
  | hlt | ret => exact ⟨_, rfl⟩
  | ldi a | prn a | push a | pop a | jmp a | call a | jeq a | jne a | jgt a | jlt a =>
    obtain ⟨p, hp⟩ := hreg (.head _)
    exact ⟨_, congrArg (Option.map _) hp⟩
  | mul a b | add a b | sub a b | div a b | mod a b | cmp a b =>
    obtain ⟨p, hp⟩ := hreg (.head _)
    obtain ⟨q, hq⟩ := hreg (.tail _ (.head _))
    exact ⟨_, Option.bind_eq_some_iff.mpr ⟨p, hp, congrArg (Option.map _) hq⟩⟩

/-- The statement an instruction is written as writes that instruction. -/
theorem instr_of_asmOf {i : Instr} {t : AsmStatement} (h : asmOf i = some t) : t.instr = some i := by
  rw [asm_instr_eq_some]
  cases i with
  | hlt | ret =>
    cases h
    exact .inl ⟨rfl, rfl, rfl⟩
  | prn a | push a | pop a | jmp a | call a | jeq a | jne a | jgt a | jlt a =>
    obtain ⟨p, hp, rfl⟩ := Option.map_eq_some_iff.mp h
    exact .inr (.inl ⟨p, a, rfl, rfl, regByte_of_asmRegister hp, rfl⟩)
  | mul a b | add a b | sub a b | div a b | mod a b | cmp a b =>
    obtain ⟨p, hp, h⟩ := Option.bind_eq_some_iff.mp h
    obtain ⟨q, hq, rfl⟩ := Option.map_eq_some_iff.mp h
    exact .inr (.inr (.inl ⟨p, q, a, b, rfl, rfl, regByte_of_asmRegister hp, regByte_of_asmRegister hq, rfl⟩))
  | ldi a imm =>
    obtain ⟨p, hp, rfl⟩ := Option.map_eq_some_iff.mp h
    exact .inr (.inr (.inr ⟨p, a, imm, rfl, rfl, regByte_of_asmRegister hp, rfl⟩))

/-- Settles O11: a statement that `asmOf` finds writes its instruction (`instr_of_asmOf`), which then has no register
byte above 7 (`asm_instr_spec`). -/
theorem namedInstructionsHaveAStatement : Obligations.NamedInstructionsHaveAStatement := by
  intro c i
  refine ⟨fun h => ?_, fun h => Option.eq_none_iff_forall_ne_some.mpr fun t ht => ?_⟩
  · obtain ⟨t, ht⟩ := exists_asmOf h
    exact ⟨t, ht, assemble_eq_some.mpr ⟨i, instr_of_asmOf ht, rfl⟩⟩
  · obtain ⟨-, -, hwf⟩ := asm_instr_spec (instr_of_asmOf ht)
    exact absurd (hwf.symm.trans h) nofun

end Sys2Proof.Machine
end
